-- ==== Sys2Proof/Word.lean ====
section
/-! DEFINITION. The words of the machine: bytes, 12-bit addresses, 16-bit instruction words, and the
indexes of registers and keys (spec/00_scope.md R7, R9; spec/30_encoding.md R71). -/

namespace Sys2Proof

/-- A general register, a timer or a memory byte: 8 bits (R7 `REG_BITS`, `TIMER_BITS`). -/
abbrev Byte := BitVec 8

/-- An address, I or PC: 12 bits (R7 `ADDR_BITS`). Addition on it wraps modulo 4096 (R24, R26). -/
abbrev Addr := BitVec 12

/-- An instruction word: 16 bits (R70). -/
abbrev Word := BitVec 16

/-- The index of a general register, V0 to VF (R21, R73). -/
abbrev Reg := Fin 16

/-- A key code, 0 to 15 (R35). -/
abbrev Key := Fin 16

end Sys2Proof
end

