-- ==== Sys2Proof/Syntax.lean ====
section
/-! DEFINITION. The instruction set: one constructor per row of spec/opcode_table.json, in the order
of spec/30_encoding.md R82, each with the operand fields of R71. -/

namespace Sys2Proof

/-- The 34 instructions of R82. `x` and `y` are register indexes, `kk` an 8-bit immediate, `nnn` a
12-bit address and `n` a count of sprite rows (R71 to R73). -/
inductive Instr where
  /-- 00E0 CLS (R200) -/
  | cls
  /-- 00EE RET (R121) -/
  | ret
  /-- 1nnn JP (R122) -/
  | jp (nnn : Addr)
  /-- 2nnn CALL (R123) -/
  | call (nnn : Addr)
  /-- 3xkk SE_IMM (R124) -/
  | seImm (x : Reg) (kk : Byte)
  /-- 4xkk SNE_IMM (R125) -/
  | sneImm (x : Reg) (kk : Byte)
  /-- 5xy0 SE_REG (R126) -/
  | seReg (x y : Reg)
  /-- 9xy0 SNE_REG (R127) -/
  | sneReg (x y : Reg)
  /-- 6xkk LD_IMM (R142) -/
  | ldImm (x : Reg) (kk : Byte)
  /-- 7xkk ADD_IMM (R143) -/
  | addImm (x : Reg) (kk : Byte)
  /-- 8xy0 LD_REG (R144) -/
  | ldReg (x y : Reg)
  /-- 8xy1 OR (R145) -/
  | orReg (x y : Reg)
  /-- 8xy2 AND (R146) -/
  | andReg (x y : Reg)
  /-- 8xy3 XOR (R147) -/
  | xorReg (x y : Reg)
  /-- 8xy4 ADD_REG (R148) -/
  | addReg (x y : Reg)
  /-- 8xy5 SUB (R149) -/
  | sub (x y : Reg)
  /-- 8xy6 SHR (R150); `y` is encoded and ignored -/
  | shr (x y : Reg)
  /-- 8xy7 SUBN (R151) -/
  | subn (x y : Reg)
  /-- 8xyE SHL (R152); `y` is encoded and ignored -/
  | shl (x y : Reg)
  /-- Annn LD_I (R170) -/
  | ldI (nnn : Addr)
  /-- Bnnn JP_V0 (R128) -/
  | jpV0 (nnn : Addr)
  /-- Cxkk RND (R154) -/
  | rnd (x : Reg) (kk : Byte)
  /-- Dxyn DRW (R201); `n` is the sprite height in rows, 0 to 15 -/
  | drw (x y : Reg) (n : Nat)
  /-- Ex9E SKP (R202) -/
  | skp (x : Reg)
  /-- ExA1 SKNP (R203) -/
  | sknp (x : Reg)
  /-- Fx07 LD_VX_DT (R190) -/
  | ldVxDt (x : Reg)
  /-- Fx15 LD_DT_VX (R191) -/
  | ldDtVx (x : Reg)
  /-- Fx18 LD_ST_VX (R192) -/
  | ldStVx (x : Reg)
  /-- Fx0A LD_VX_K (R204) -/
  | ldVxK (x : Reg)
  /-- Fx1E ADD_I_VX (R171) -/
  | addIVx (x : Reg)
  /-- Fx29 LD_F_VX (R172) -/
  | ldFVx (x : Reg)
  /-- Fx33 LD_B_VX (R173) -/
  | ldBVx (x : Reg)
  /-- Fx55 LD_MI_VX (R174) -/
  | ldMiVx (x : Reg)
  /-- Fx65 LD_VX_MI (R175) -/
  | ldVxMi (x : Reg)
deriving DecidableEq, Repr

end Sys2Proof
end

