-- ==== Sys2Proof/WellFormed.lean ====
section
/-! DEFINITION. Which terms of `Instr` are instructions of the machine. Register indexes, immediates
and addresses are bounded by their types, and every value of them is legal (spec/30_encoding.md R73);
the one operand with a bound to check is the row count of DRW, a 4-bit field (R71, R72). -/

namespace Sys2Proof

/-- Every operand fits its encoding field: `n` of DRW is "a 4-bit count in [0, 15]" (R72). -/
def Instr.wf : Instr → Bool
  | .drw _ _ n => decide (n < 16)
  | .cls | .ret | .jp _ | .call _ | .seImm _ _ | .sneImm _ _ | .seReg _ _ | .sneReg _ _ => true
  | .ldImm _ _ | .addImm _ _ | .ldReg _ _ | .orReg _ _ | .andReg _ _ | .xorReg _ _ => true
  | .addReg _ _ | .sub _ _ | .shr _ _ | .subn _ _ | .shl _ _ | .ldI _ | .jpV0 _ | .rnd _ _ => true
  | .skp _ | .sknp _ | .ldVxDt _ | .ldDtVx _ | .ldStVx _ | .ldVxK _ | .addIVx _ | .ldFVx _ => true
  | .ldBVx _ | .ldMiVx _ | .ldVxMi _ => true

end Sys2Proof
end

