-- ==== Sys2Proof/Decode.lean ====
section
/-! DEFINITION. Decoding of a 16-bit word (spec/30_encoding.md R70 to R85), the encoder (R88), and
the opcode map of R82 as a table. -/

namespace Sys2Proof

/-! ### The fields of a word (R71) -/

/-- `op` = w[15:12], the high nibble. -/
def fieldOp (w : Word) : BitVec 4 := w.extractLsb' 12 4
/-- `x` = w[11:8], a register index. -/
def fieldX (w : Word) : Reg := (w.extractLsb' 8 4).toFin
/-- `y` = w[7:4], a register index. -/
def fieldY (w : Word) : Reg := (w.extractLsb' 4 4).toFin
/-- `n` = w[3:0], a 4-bit count and the secondary opcode of group 8. -/
def fieldN (w : Word) : BitVec 4 := w.extractLsb' 0 4
/-- `kk` = w[7:0], an 8-bit immediate and the secondary opcode of groups E and F. -/
def fieldKK (w : Word) : Byte := w.extractLsb' 0 8
/-- `nnn` = w[11:0], a 12-bit address. -/
def fieldNNN (w : Word) : Addr := w.extractLsb' 0 12

/-- What decoding answers: an instruction, or a rejection by name. `unknownOpcode` is the spec's
`Unknown` (R74); `tooShort` is a byte sequence with fewer than two bytes, which no fetch gives (R70). -/
inductive Decoded where
  | instr (i : Instr)
  | unknownOpcode (w : Word)
  | tooShort (length : Nat)
deriving DecidableEq, Repr

/-! ### Decoding, group by group -/

/-- Group 0: only the words 0x00E0 and 0x00EE (R75). -/
def decodeGroup0 (w : Word) : Decoded :=
  if w = 0x00E0#16 then .instr .cls
  else if w = 0x00EE#16 then .instr .ret
  else .unknownOpcode w

/-- Group 8 dispatches on `n` (R78). -/
def decodeGroup8 (w : Word) : Decoded :=
  match (fieldN w).toNat with
  | 0x0 => .instr (.ldReg (fieldX w) (fieldY w))
  | 0x1 => .instr (.orReg (fieldX w) (fieldY w))
  | 0x2 => .instr (.andReg (fieldX w) (fieldY w))
  | 0x3 => .instr (.xorReg (fieldX w) (fieldY w))
  | 0x4 => .instr (.addReg (fieldX w) (fieldY w))
  | 0x5 => .instr (.sub (fieldX w) (fieldY w))
  | 0x6 => .instr (.shr (fieldX w) (fieldY w))
  | 0x7 => .instr (.subn (fieldX w) (fieldY w))
  | 0xE => .instr (.shl (fieldX w) (fieldY w))
  | _ => .unknownOpcode w

/-- Group E dispatches on `kk` (R79). -/
def decodeGroupE (w : Word) : Decoded :=
  if fieldKK w = 0x9E#8 then .instr (.skp (fieldX w))
  else if fieldKK w = 0xA1#8 then .instr (.sknp (fieldX w))
  else .unknownOpcode w

/-- Group F dispatches on `kk` (R80). -/
def decodeGroupF (w : Word) : Decoded :=
  if fieldKK w = 0x07#8 then .instr (.ldVxDt (fieldX w))
  else if fieldKK w = 0x0A#8 then .instr (.ldVxK (fieldX w))
  else if fieldKK w = 0x15#8 then .instr (.ldDtVx (fieldX w))
  else if fieldKK w = 0x18#8 then .instr (.ldStVx (fieldX w))
  else if fieldKK w = 0x1E#8 then .instr (.addIVx (fieldX w))
  else if fieldKK w = 0x29#8 then .instr (.ldFVx (fieldX w))
  else if fieldKK w = 0x33#8 then .instr (.ldBVx (fieldX w))
  else if fieldKK w = 0x55#8 then .instr (.ldMiVx (fieldX w))
  else if fieldKK w = 0x65#8 then .instr (.ldVxMi (fieldX w))
  else .unknownOpcode w

/-- A word of group 5 or 9 decodes only with `n` = 0 (R77). -/
def decodeNZero (w : Word) (i : Instr) : Decoded :=
  if fieldN w = 0#4 then .instr i else .unknownOpcode w

/-- Decode a word: total, on the word alone (R74, R85). Dispatch is on the high nibble, then on a
secondary field for groups 0, 5, 8, 9, E and F. A 4-bit field has no other value than these 16. -/
def decodeWord (w : Word) : Decoded :=
  match (fieldOp w).toNat with
  | 0x0 => decodeGroup0 w
  | 0x1 => .instr (.jp (fieldNNN w))
  | 0x2 => .instr (.call (fieldNNN w))
  | 0x3 => .instr (.seImm (fieldX w) (fieldKK w))
  | 0x4 => .instr (.sneImm (fieldX w) (fieldKK w))
  | 0x5 => decodeNZero w (.seReg (fieldX w) (fieldY w))
  | 0x6 => .instr (.ldImm (fieldX w) (fieldKK w))
  | 0x7 => .instr (.addImm (fieldX w) (fieldKK w))
  | 0x8 => decodeGroup8 w
  | 0x9 => decodeNZero w (.sneReg (fieldX w) (fieldY w))
  | 0xA => .instr (.ldI (fieldNNN w))
  | 0xB => .instr (.jpV0 (fieldNNN w))
  | 0xC => .instr (.rnd (fieldX w) (fieldKK w))
  | 0xD => .instr (.drw (fieldX w) (fieldY w) (fieldN w).toNat)
  | 0xE => decodeGroupE w
  | 0xF => decodeGroupF w
  | _ => .unknownOpcode w

/-- The word of two bytes, the first the high byte: an instruction is big-endian (R54, R102). -/
def wordOfBytes (hi lo : Byte) : Word := hi ++ lo

/-- Decode the instruction at the head of a byte sequence, and the bytes after it (R70: always two). -/
def decodeBytes : List Byte → Decoded × List Byte
  | hi :: lo :: rest => (decodeWord (wordOfBytes hi lo), rest)
  | short => (.tooShort short.length, [])

/-! ### Encoding (R88) -/

/-- `op << 12 | x << 8 | y << 4 | n`. -/
def packXYN (op : BitVec 4) (x y : Reg) (n : BitVec 4) : Word :=
  op ++ BitVec.ofFin (w := 4) x ++ BitVec.ofFin (w := 4) y ++ n
/-- `op << 12 | x << 8 | kk`. -/
def packXKK (op : BitVec 4) (x : Reg) (kk : Byte) : Word := op ++ BitVec.ofFin (w := 4) x ++ kk
/-- `op << 12 | nnn`. -/
def packNNN (op : BitVec 4) (nnn : Addr) : Word := op ++ nnn

/-- The word of an instruction, from the encodings of R71 and R82. -/
def encode : Instr → Word
  | .cls => 0x00E0#16
  | .ret => 0x00EE#16
  | .jp nnn => packNNN 0x1 nnn
  | .call nnn => packNNN 0x2 nnn
  | .seImm x kk => packXKK 0x3 x kk
  | .sneImm x kk => packXKK 0x4 x kk
  | .seReg x y => packXYN 0x5 x y 0x0
  | .sneReg x y => packXYN 0x9 x y 0x0
  | .ldImm x kk => packXKK 0x6 x kk
  | .addImm x kk => packXKK 0x7 x kk
  | .ldReg x y => packXYN 0x8 x y 0x0
  | .orReg x y => packXYN 0x8 x y 0x1
  | .andReg x y => packXYN 0x8 x y 0x2
  | .xorReg x y => packXYN 0x8 x y 0x3
  | .addReg x y => packXYN 0x8 x y 0x4
  | .sub x y => packXYN 0x8 x y 0x5
  | .shr x y => packXYN 0x8 x y 0x6
  | .subn x y => packXYN 0x8 x y 0x7
  | .shl x y => packXYN 0x8 x y 0xE
  | .ldI nnn => packNNN 0xA nnn
  | .jpV0 nnn => packNNN 0xB nnn
  | .rnd x kk => packXKK 0xC x kk
  | .drw x y n => packXYN 0xD x y (BitVec.ofNat 4 n)
  | .skp x => packXKK 0xE x 0x9E
  | .sknp x => packXKK 0xE x 0xA1
  | .ldVxDt x => packXKK 0xF x 0x07
  | .ldDtVx x => packXKK 0xF x 0x15
  | .ldStVx x => packXKK 0xF x 0x18
  | .ldVxK x => packXKK 0xF x 0x0A
  | .addIVx x => packXKK 0xF x 0x1E
  | .ldFVx x => packXKK 0xF x 0x29
  | .ldBVx x => packXKK 0xF x 0x33
  | .ldMiVx x => packXKK 0xF x 0x55
  | .ldVxMi x => packXKK 0xF x 0x65

/-- The high byte of a word, at the lower address (R54). -/
def hiByte (w : Word) : Byte := w.extractLsb' 8 8
/-- The low byte of a word, at the higher address (R54). -/
def loByte (w : Word) : Byte := w.extractLsb' 0 8

/-- The two bytes of an instruction in memory order (R54). -/
def encodeBytes (i : Instr) : List Byte := [hiByte (encode i), loByte (encode i)]

/-! ### The opcode map (R82) -/

/-- One row of the opcode map: "a word w spells it when `w & mask = match`" (R82). -/
structure OpcodeRow where
  pattern : Word
  mask : Word
deriving DecidableEq, Repr

/-- The word spells the row's instruction. -/
def OpcodeRow.spells (r : OpcodeRow) (w : Word) : Bool := w &&& r.mask == r.pattern

/-- The row of each instruction, `match` and `mask` as R82 lists them. -/
def opcodeRow : Instr → OpcodeRow
  | .cls => ⟨0x00E0#16, 0xFFFF#16⟩
  | .ret => ⟨0x00EE#16, 0xFFFF#16⟩
  | .jp _ => ⟨0x1000#16, 0xF000#16⟩
  | .call _ => ⟨0x2000#16, 0xF000#16⟩
  | .seImm _ _ => ⟨0x3000#16, 0xF000#16⟩
  | .sneImm _ _ => ⟨0x4000#16, 0xF000#16⟩
  | .seReg _ _ => ⟨0x5000#16, 0xF00F#16⟩
  | .sneReg _ _ => ⟨0x9000#16, 0xF00F#16⟩
  | .ldImm _ _ => ⟨0x6000#16, 0xF000#16⟩
  | .addImm _ _ => ⟨0x7000#16, 0xF000#16⟩
  | .ldReg _ _ => ⟨0x8000#16, 0xF00F#16⟩
  | .orReg _ _ => ⟨0x8001#16, 0xF00F#16⟩
  | .andReg _ _ => ⟨0x8002#16, 0xF00F#16⟩
  | .xorReg _ _ => ⟨0x8003#16, 0xF00F#16⟩
  | .addReg _ _ => ⟨0x8004#16, 0xF00F#16⟩
  | .sub _ _ => ⟨0x8005#16, 0xF00F#16⟩
  | .shr _ _ => ⟨0x8006#16, 0xF00F#16⟩
  | .subn _ _ => ⟨0x8007#16, 0xF00F#16⟩
  | .shl _ _ => ⟨0x800E#16, 0xF00F#16⟩
  | .ldI _ => ⟨0xA000#16, 0xF000#16⟩
  | .jpV0 _ => ⟨0xB000#16, 0xF000#16⟩
  | .rnd _ _ => ⟨0xC000#16, 0xF000#16⟩
  | .drw _ _ _ => ⟨0xD000#16, 0xF000#16⟩
  | .skp _ => ⟨0xE09E#16, 0xF0FF#16⟩
  | .sknp _ => ⟨0xE0A1#16, 0xF0FF#16⟩
  | .ldVxDt _ => ⟨0xF007#16, 0xF0FF#16⟩
  | .ldDtVx _ => ⟨0xF015#16, 0xF0FF#16⟩
  | .ldStVx _ => ⟨0xF018#16, 0xF0FF#16⟩
  | .ldVxK _ => ⟨0xF00A#16, 0xF0FF#16⟩
  | .addIVx _ => ⟨0xF01E#16, 0xF0FF#16⟩
  | .ldFVx _ => ⟨0xF029#16, 0xF0FF#16⟩
  | .ldBVx _ => ⟨0xF033#16, 0xF0FF#16⟩
  | .ldMiVx _ => ⟨0xF055#16, 0xF0FF#16⟩
  | .ldVxMi _ => ⟨0xF065#16, 0xF0FF#16⟩

/-- The 34 rows of the opcode map, in the order of R82. -/
def opcodeMap : List OpcodeRow :=
  [opcodeRow .cls, opcodeRow .ret, opcodeRow (.jp 0), opcodeRow (.call 0), opcodeRow (.seImm 0 0),
   opcodeRow (.sneImm 0 0), opcodeRow (.seReg 0 0), opcodeRow (.sneReg 0 0), opcodeRow (.ldImm 0 0),
   opcodeRow (.addImm 0 0), opcodeRow (.ldReg 0 0), opcodeRow (.orReg 0 0), opcodeRow (.andReg 0 0),
   opcodeRow (.xorReg 0 0), opcodeRow (.addReg 0 0), opcodeRow (.sub 0 0), opcodeRow (.shr 0 0)] ++
  [opcodeRow (.subn 0 0), opcodeRow (.shl 0 0), opcodeRow (.ldI 0), opcodeRow (.jpV0 0),
   opcodeRow (.rnd 0 0), opcodeRow (.drw 0 0 0), opcodeRow (.skp 0), opcodeRow (.sknp 0),
   opcodeRow (.ldVxDt 0), opcodeRow (.ldDtVx 0), opcodeRow (.ldStVx 0), opcodeRow (.ldVxK 0),
   opcodeRow (.addIVx 0), opcodeRow (.ldFVx 0), opcodeRow (.ldBVx 0), opcodeRow (.ldMiVx 0),
   opcodeRow (.ldVxMi 0)]

/-- The word whose bits spec/opcode_table.json numbers in `w`: one 16-bit word, bits from `nbits` up 0. -/
def tableWord (nbits w : Nat) : Word := BitVec.ofNat 16 (w % 2 ^ nbits)

/-- The instruction the decoder reads from the table's word, laid out as the machine stores it. -/
def decodeTableWord (nbits w : Nat) : Option Instr :=
  match decodeBytes [hiByte (tableWord nbits w), loByte (tableWord nbits w)] with
  | (.instr i, _) => some i
  | (.unknownOpcode _, _) => none
  | (.tooShort _, _) => none

end Sys2Proof
end

