-- ==== Sys2Proof/Config.lean ====
section
/-! DEFINITION. What an implementation fixes (the parameters of spec/00_scope.md R7) and the values
the spec leaves free. A machine instance carries one `Config` in its state, so a claim about every
state is a claim about every choice of the parameters. -/

namespace Sys2Proof

/-- The parameters of one machine instance, fixed for its life (R7, R113, R235). -/
structure Config where
  /-- `IPT`: executor slots per tick, any natural number (R113). -/
  ipt : Nat
  /-- `DISPLAY_W`: pixel buffer width, at least 1 (R8). -/
  displayW : Nat
  /-- `DISPLAY_H`: pixel buffer height, at least 1 (R8). -/
  displayH : Nat
  /-- `FONT`: the 80 bytes at addresses 0x000 to 0x04F, digit d at [5d, 5d+5) (R33). -/
  font : Vector Byte 80
  /-- `STACK_CAPACITY`: `none` is the source's unbounded stack (R27), `some c` a finite build (R223). -/
  stackCapacity : Option Nat
deriving DecidableEq, Repr

/-- "`DISPLAY_W` and `DISPLAY_H` must each be at least 1" (R8). -/
def Config.wf (c : Config) : Bool := decide (0 < c.displayW ∧ 0 < c.displayH)

/-- The reference font of R33. PRESUMED: the spec marks these bytes as general knowledge (D9, G1),
log entry 3. Unsafe for a claim that starts at `State.reset` and rests on a font byte. -/
def Config.referenceFont : Vector Byte 80 :=
  #v[0xF0, 0x90, 0x90, 0x90, 0xF0,  0x20, 0x60, 0x20, 0x20, 0x70,
     0xF0, 0x10, 0xF0, 0x80, 0xF0,  0xF0, 0x10, 0xF0, 0x10, 0xF0,
     0x90, 0x90, 0xF0, 0x10, 0x10,  0xF0, 0x80, 0xF0, 0x10, 0xF0,
     0xF0, 0x80, 0xF0, 0x90, 0xF0,  0xF0, 0x10, 0x20, 0x40, 0x40,
     0xF0, 0x90, 0xF0, 0x90, 0xF0,  0xF0, 0x90, 0xF0, 0x10, 0xF0,
     0xF0, 0x90, 0xF0, 0x90, 0x90,  0xE0, 0x90, 0xE0, 0x90, 0xE0,
     0xF0, 0x80, 0x80, 0x80, 0xF0,  0xE0, 0x90, 0x90, 0x90, 0xE0,
     0xF0, 0x80, 0xF0, 0x80, 0xF0,  0xF0, 0x80, 0xF0, 0x80, 0x80]

/-- The configuration of `State.reset`: IPT 10, the source's default (R113; DESIGN CHOICE, log entry 4),
the reference display 64 by 32 (R8; PRESUMED, log entry 2), the reference font (PRESUMED, log entry 3)
and the source's unbounded stack (R27; DESIGN CHOICE, log entry 5). -/
def Config.reference : Config where
  ipt := 10
  displayW := 64
  displayH := 32
  font := Config.referenceFont
  stackCapacity := none

/-- Which of its two readings `SHL_VF_SET` takes (R152, D6). A FREE VALUE: the spec leaves it open
and nothing in the model fixes it; log entry 6. -/
opaque Config.shlVfMasked : Bool

/-- `SHL_VF_SET`, "a parameter that is 0x01 or 0x80" (R152): nothing more is known of it. -/
def Config.shlVfSet : Byte := if Config.shlVfMasked then 0x80 else 0x01

/-- The random byte of the n-th draw (R153). A FREE VALUE: "No distribution, seed or sequence is
specified, and a model must not fix one"; log entry 7. -/
opaque Config.drawByte : Nat → Byte

end Sys2Proof
end

