-- ==== Sys2Proof/Machine/State.lean ====
section
/-! DEFINITION. The state of the machine as plain data (spec/10_state.md R20), the fault record of
spec/60_exceptions.md R225, the reasons a step can stop, and the state after reset (R38). -/

namespace Sys2Proof.Machine

/-- The fatal faults (R220, R225). -/
inductive FaultKind where
  /-- The step fetched a word that decodes to Unknown (R221). -/
  | unknownOpcode
  /-- RET with an empty stack (R222). -/
  | emptyStackPop
  /-- CALL with a full stack, only where `STACK_CAPACITY` is finite (R223). -/
  | stackOverflow
deriving DecidableEq, Repr

/-- What a fatal fault records (the spec's `Fault` structure, R225). -/
structure FaultRecord where
  kind : FaultKind
  /-- the raw instruction word -/
  word : Word
  /-- the fetch address -/
  addr : Addr
deriving DecidableEq, Repr

/-- One action of the host (R235, R243): invoke a tick, or deliver a key event. -/
inductive HostAction where
  /-- "run one tick" (R106) -/
  | tick
  /-- a key goes down (R205, R240) -/
  | keyDown (k : Key)
  /-- a key goes up (R240) -/
  | keyUp (k : Key)
deriving DecidableEq, Repr

/-- Memory, as the list of the addresses whose byte differs from its reset content, addresses strictly
rising (`Memory.wf` in Machine/Ops.lean). -/
abbrev Memory := List Host.Cell

/-- The pixel buffer, as the list of the pixels that are on, each a (row, column) pair, rising in rows
and, within a row, in columns (`Display.wf` in Machine/Ops.lean). -/
abbrev Display := List (Nat × Nat)

/-- The machine state: the record of R20, then the configuration of the instance and the model's own
bookkeeping. -/
structure State where
  /-- memory, 4096 bytes (R50) -/
  mem : Memory
  /-- general registers V0 to VF (R21) -/
  v : Vector Byte 16
  /-- address register I (R26) -/
  i : Addr
  /-- program counter PC (R24) -/
  pc : Addr
  /-- call stack of return addresses, head = top (R27) -/
  stack : List Addr
  /-- delay timer DT (R28) -/
  dt : Byte
  /-- sound timer ST (R29) -/
  st : Byte
  /-- blocked on Fx0A (R30) -/
  paused : Bool
  /-- the register the pending Fx0A will write (R30) -/
  waitReg : Option Reg
  /-- set by a fatal fault, never cleared (R31) -/
  halted : Option FaultRecord
  /-- the pixel buffer (R34) -/
  display : Display
  /-- "is key k currently pressed" (R35) -/
  keys : Vector Bool 16
  /-- the last value given to setTone (R36) -/
  tone : Bool
  /-- the parameters of this instance, never changed by a step (R7; log entry 1) -/
  cfg : Config
  /-- the model's own: slots of the current tick already used, 0 between ticks. It is the loop variable
  of R106, "the position in the tick" of R245 (log entry 10). -/
  slot : Nat
  /-- the model's own: what the host will do, oldest first; when it is empty the host only invokes
  ticks (R243; log entry 11) -/
  host : List HostAction
  /-- the model's own: how many random bytes have been drawn; the next draw is
  `Config.drawByte draws` (R153; log entry 7) -/
  draws : Nat
deriving DecidableEq, Repr

/-- Why the machine stops outside its own state. The fatal faults of the spec are NOT here: each is a next
state that holds its record in `halted` (R225; log entry 12). -/
inductive Fault where
  /-- Raised by DRW on a configuration whose display has no pixel (width or height 0), which R8 excludes.
  Safe: the spec gives such a machine no behaviour. Log entry 26. -/
  | noDisplay
deriving DecidableEq, Repr

/-- Why something has no meaning in the model. -/
inductive Refusal where
  /-- Raised by an arm of `exec` for an instruction that has no meaning yet. Safe: nothing is claimed of it. -/
  | notModelled (mnemonic : String)
  /-- Raised by `load` for a program image of more than 3584 bytes: "the load is refused, so no machine
  instance exists" (R262, D13). Safe: no state comes of it. Log entry 13. -/
  | imageTooLong (length : Nat)
deriving DecidableEq, Repr

/-- A new machine instance of a configuration, before the load: every field at its reset value (R38,
R260, R261). Memory lists nothing: an unlisted address reads as the font or as 0 (`memReset`). -/
def State.powerOn (c : Config) : State where
  mem := []
  v := Vector.replicate 16 0
  i := 0
  pc := 0x200
  stack := []
  dt := 0
  st := 0
  paused := false
  waitReg := none
  halted := none
  display := []
  keys := Vector.replicate 16 false
  tone := false
  cfg := c
  slot := 0
  host := []
  draws := 0

/-- The machine right after reset, of the reference configuration, with no program loaded (R38, R262). -/
def State.reset : State := State.powerOn Config.reference

end Sys2Proof.Machine
end

