-- ==== Sys2Proof/Machine/Ops.lean ====
section
/-! DEFINITION. The named operations over the state that every rule is written in
(spec/00_scope.md R12): registers, memory, PC, the call stack, taking a fatal fault, the display, the
keyboard, the timers and the host's actions. -/

namespace Sys2Proof.Machine

/-- What a step or a meaning answers. -/
abbrev Result := Host.Outcome State Fault Refusal

/-! ### One setter per field -/

def State.setMem (s : State) (m : Memory) : State := { s with mem := m }
def State.setV (s : State) (v : Vector Byte 16) : State := { s with v := v }
def State.setI (s : State) (a : Addr) : State := { s with i := a }
def State.setPc (s : State) (a : Addr) : State := { s with pc := a }
def State.setStack (s : State) (l : List Addr) : State := { s with stack := l }
def State.setDt (s : State) (b : Byte) : State := { s with dt := b }
def State.setSt (s : State) (b : Byte) : State := { s with st := b }
/-- `paused` and `waitReg` change together (R30): waiting for register x, or not waiting. -/
def State.setWait (s : State) (w : Option Reg) : State := { s with paused := w.isSome, waitReg := w }
def State.setHalted (s : State) (h : Option FaultRecord) : State := { s with halted := h }
def State.setDisplay (s : State) (d : Display) : State := { s with display := d }
def State.setKeys (s : State) (k : Vector Bool 16) : State := { s with keys := k }
def State.setTone (s : State) (b : Bool) : State := { s with tone := b }
def State.setCfg (s : State) (c : Config) : State := { s with cfg := c }
def State.setSlot (s : State) (n : Nat) : State := { s with slot := n }
def State.setHost (s : State) (l : List HostAction) : State := { s with host := l }
def State.setDraws (s : State) (n : Nat) : State := { s with draws := n }

/-! ### Registers (R12, R21) -/

/-- `V[x]`. -/
def State.reg (s : State) (x : Reg) : Byte := s.v[x]

/-- `V[x] <- b`. -/
def State.setReg (s : State) (x : Reg) (b : Byte) : State := s.setV (s.v.set x b)

/-- `VF` is `V[15]` (R12, R21). -/
def vf : Reg := 15

/-! ### Memory (R50 to R54) -/

/-- What an unlisted address reads as: the reset content of memory, FONT at 0x000 to 0x04F and 0
elsewhere (R38, R261; log entry 9). -/
def memReset (c : Config) (a : Nat) : Byte :=
  if h : a < 80 then c.font[a] else 0

/-- The byte listed at an address. -/
def Memory.lookup : Memory → Nat → Option Byte
  | [], _ => none
  | (a', b) :: rest, a => if a' = a then some b else Memory.lookup rest a

/-- The byte at an address below 4096. -/
def Memory.read (c : Config) (m : Memory) (a : Nat) : Byte :=
  (Memory.lookup m a).getD (memReset c a)

/-- List byte `b` at address `a`, in the place the rising order gives it. -/
def Memory.insert (a : Nat) (b : Byte) : Memory → Memory
  | [] => [(a, b)]
  | (a', b') :: rest =>
    if a < a' then (a, b) :: (a', b') :: rest
    else if a = a' then (a, b) :: rest
    else (a', b') :: Memory.insert a b rest

/-- Write a byte and keep the canonical form: writing the reset content removes the entry. -/
def Memory.write (c : Config) (m : Memory) (a : Nat) (b : Byte) : Memory :=
  if b = memReset c a then m.filter (fun cell => cell.1 ≠ a) else Memory.insert a b m

/-- The canonical form: addresses strictly rising and below 4096, no entry equal to what an unlisted
address reads as. -/
def Memory.wf (c : Config) (m : Memory) : Bool :=
  decide (m.Pairwise (fun p q => p.1 < q.1) ∧ ∀ p ∈ m, p.1 < 4096 ∧ p.2 ≠ memReset c p.1)

/-- `MemRead(addr, 1) = mem[addr mod 4096]` (R12, R51). -/
def State.memRead (s : State) (addr : Nat) : Byte := Memory.read s.cfg s.mem (addr % 4096)

/-- `MemWrite(addr, 1, b) : mem[addr mod 4096] <- b` (R12, R51). -/
def State.memWrite (s : State) (addr : Nat) (b : Byte) : State :=
  s.setMem (Memory.write s.cfg s.mem (addr % 4096) b)

/-! ### Program counter (R24, R103, R120) -/

/-- "Advance PC by 2 *before* dispatch" (R103), modulo 4096. -/
def State.advancePc (s : State) : State := s.setPc (s.pc + 2)

/-- `SkipIf(c)`: a taken skip adds 2 to PC, modulo 4096 (R120). -/
def State.skipIf (s : State) (c : Bool) : State := if c then s.setPc (s.pc + 2) else s

/-! ### Call stack (R27) -/

/-- `Push(a)`. -/
def State.push (s : State) (a : Addr) : State := s.setStack (a :: s.stack)

/-- The stack holds as many entries as a finite `STACK_CAPACITY` allows; never true of the source's
unbounded stack (R223, R27). -/
def State.stackFull (s : State) : Bool :=
  match s.cfg.stackCapacity with
  | none => false
  | some c => decide (c ≤ s.stack.length)

/-! ### Taking a fatal fault (R225) -/

/-- The cause code of each fault (R220). -/
def faultCode : FaultKind → Nat
  | .unknownOpcode => 1
  | .emptyStackPop => 2
  | .stackOverflow => 3

/-- `raise`: `halted` records the kind, the raw word and the fetch address, and "Nothing else changes"
(R225). PC already holds the fetch address plus 2 (R103), so the fetch address is PC - 2. There is no
return from a fault and no operation that clears `halted` (R226). -/
def State.raiseFault (s : State) (kind : FaultKind) (word : Word) : State :=
  s.setHalted (some ⟨kind, word, s.pc - 2⟩)

/-! ### Display (R34, R236 to R238) -/

/-- The order of the pixels in the canonical list: by row, then by column. -/
abbrev pixelLt (p q : Nat × Nat) : Prop := p.1 < q.1 ∨ (p.1 = q.1 ∧ p.2 < q.2)

/-- `display[py][px]`. -/
def Display.isOn (d : Display) (py px : Nat) : Bool := decide ((py, px) ∈ d)

/-- Turn a pixel that is off on, in the place the order gives it. -/
def Display.insert (p : Nat × Nat) : Display → Display
  | [] => [p]
  | q :: rest => if pixelLt p q then p :: q :: rest else q :: Display.insert p rest

/-- Flip one pixel. -/
def Display.flip (d : Display) (p : Nat × Nat) : Display :=
  if p ∈ d then d.filter (fun q => q ≠ p) else Display.insert p d

/-- The canonical form: pixels strictly rising and inside the buffer. -/
def Display.wf (c : Config) (d : Display) : Bool :=
  decide (d.Pairwise pixelLt ∧ ∀ p ∈ d, p.1 < c.displayH ∧ p.2 < c.displayW)

/-- `Toggle(x, y)`: wrap the coordinates to the buffer, flip that pixel, and return whether it was on
(R236). -/
def Display.toggle (c : Config) (d : Display) (x y : Nat) : Display × Bool :=
  (Display.flip d (y % c.displayH, x % c.displayW), Display.isOn d (y % c.displayH) (x % c.displayW))

/-- Toggle a list of (x, y) points in order; the flag says whether any toggle erased a pixel (R201). -/
def Display.toggleAll (c : Config) : List (Nat × Nat) → Display × Bool → Display × Bool
  | [], acc => acc
  | (x, y) :: rest, (d, erased) =>
    let (d', prior) := Display.toggle c d x y
    Display.toggleAll c rest (d', erased || prior)

/-- `ClearDisplay()`: every pixel off (R237). -/
def State.clearDisplay (s : State) : State := s.setDisplay []

/-- `Flush()`: paints the buffer to a screen and "changes no state of 10_state.md rule R20" (R238). -/
def State.flush (s : State) : State := s

/-! ### Keyboard (R205, R239, R240) -/

/-- `IsPressed(k)` (R239). -/
def State.isPressed (s : State) (k : Key) : Bool := s.keys[k]

/-- The byte a completed Fx0A writes: the key code (R205). -/
def keyCode (k : Key) : Byte := BitVec.ofNat 8 k.val

/-- `OnKeyDown(k)`: the key reads as pressed, and a pending Fx0A is completed (R205). `paused` with no
`waitReg` is no state of the machine (R30); there no register is written (log entry 24). -/
def State.keyDown (s : State) (k : Key) : State :=
  let t := s.setKeys (s.keys.set k true)
  if s.paused then
    match s.waitReg with
    | some x => (t.setReg x (keyCode k)).setWait none
    | none => t.setWait none
  else t

/-- `keyUp(k): keys[k] <- false` (R240). -/
def State.keyUp (s : State) (k : Key) : State := s.setKeys (s.keys.set k false)

/-! ### Timers and tone (R108, R110) -/

/-- Count a timer down once: "stopping at 0" (R108). -/
def countDown (t : Byte) : Byte := if t = 0 then 0 else t - 1

/-! ### Random bytes (R153) -/

/-- `Draw8()`: the next random byte, a free value, and the state that has drawn it. -/
def State.draw8 (s : State) : Byte × State := (Config.drawByte s.draws, s.setDraws (s.draws + 1))

end Sys2Proof.Machine
end

