-- ==== Sys2Proof/Machine/Flags.lean ====
section
/-! DEFINITION. Every flag computation (spec/42_alu.md R141, R148 to R152; spec/45_devices.md R201) and
the order in which a result and its flag are written. -/

namespace Sys2Proof.Machine

/-- A flag as a byte: 1 or 0. -/
def flagByte (c : Bool) : Byte := if c then 1 else 0

/-- 8xy4: 1 when the unreduced sum exceeds 255 (R148). -/
def carryFlag (a b : Byte) : Byte := flagByte (decide (255 < a.toNat + b.toNat))

/-- 8xy5 and 8xy7: 1 when the minuend is strictly greater than the subtrahend (R149, R151). -/
def greaterFlag (minuend subtrahend : Byte) : Byte := flagByte (decide (subtrahend.toNat < minuend.toNat))

/-- 8xy6: bit 0 before the shift (R150). -/
def shrFlag (a : Byte) : Byte := a &&& 1

/-- 8xyE: 0 when bit 7 was clear, `SHL_VF_SET` when it was set (R152). -/
def shlFlag (a : Byte) : Byte := if a &&& 0x80 ≠ 0 then Config.shlVfSet else 0

/-- "The 8-bit result is written to V[x] first, and the flag is written to VF last" (R141). -/
def State.setResultFlag (s : State) (x : Reg) (result flag : Byte) : State :=
  (s.setReg x result).setReg vf flag

end Sys2Proof.Machine
end

