-- ==== Sys2Proof/Machine/Alu.lean ====
section
/-! DEFINITION. Register loads, arithmetic, logic, shifts and random (spec/42_alu.md). Arithmetic is
unsigned and modulo 256 (R140). -/

namespace Sys2Proof.Machine

/-- 6xkk LD_IMM (R142). -/
def execLdImm (x : Reg) (kk : Byte) (s : State) : Result := .next (s.setReg x kk)

/-- 7xkk ADD_IMM: modulo 256, "no flag set" (R143). -/
def execAddImm (x : Reg) (kk : Byte) (s : State) : Result := .next (s.setReg x (s.reg x + kk))

/-- 8xy0 LD_REG (R144). -/
def execLdReg (x y : Reg) (s : State) : Result := .next (s.setReg x (s.reg y))

/-- 8xy1 OR; VF is not reset (R145). -/
def execOrReg (x y : Reg) (s : State) : Result := .next (s.setReg x (s.reg x ||| s.reg y))

/-- 8xy2 AND; VF is not reset (R146). -/
def execAndReg (x y : Reg) (s : State) : Result := .next (s.setReg x (s.reg x &&& s.reg y))

/-- 8xy3 XOR; VF is not reset (R147). -/
def execXorReg (x y : Reg) (s : State) : Result := .next (s.setReg x (s.reg x ^^^ s.reg y))

/-- 8xy4 ADD_REG: the sum modulo 256, VF its carry (R148). -/
def execAddReg (x y : Reg) (s : State) : Result :=
  .next (s.setResultFlag x (s.reg x + s.reg y) (carryFlag (s.reg x) (s.reg y)))

/-- 8xy5 SUB: V[x] - V[y] modulo 256, VF = V[x] > V[y] before it (R149). -/
def execSub (x y : Reg) (s : State) : Result :=
  .next (s.setResultFlag x (s.reg x - s.reg y) (greaterFlag (s.reg x) (s.reg y)))

/-- 8xy6 SHR: V[x] shifted right by one, VF the bit shifted out; V[y] is not read (R150). -/
def execShr (x _y : Reg) (s : State) : Result :=
  .next (s.setResultFlag x (s.reg x >>> 1) (shrFlag (s.reg x)))

/-- 8xy7 SUBN: V[y] - V[x] modulo 256, VF = V[y] > V[x] before it (R151). -/
def execSubn (x y : Reg) (s : State) : Result :=
  .next (s.setResultFlag x (s.reg y - s.reg x) (greaterFlag (s.reg y) (s.reg x)))

/-- 8xyE SHL: V[x] shifted left by one, VF from the bit shifted out; V[y] is not read (R152). -/
def execShl (x _y : Reg) (s : State) : Result :=
  .next (s.setResultFlag x (s.reg x <<< 1) (shlFlag (s.reg x)))

/-- Cxkk RND: a random byte masked by kk (R154). -/
def execRnd (x : Reg) (kk : Byte) (s : State) : Result :=
  .next (s.draw8.2.setReg x (s.draw8.1 &&& kk))

end Sys2Proof.Machine
end

