-- ==== Sys2Proof/Machine/Operands.lean ====
section
/-! DEFINITION. The operand forms: immediates widened to an address, the addressing mode I + k
(spec/43_index_memory.md R176), the register block V0 to Vx, key codes, decimal digits and the
points of a sprite (spec/45_devices.md R201). -/

namespace Sys2Proof.Machine

/-- An 8-bit value zero-extended to 12 bits (R11 `zext_N`, R72). -/
def zext12 (b : Byte) : Addr := b.zeroExtend 12

/-- `EA = (I + k)`, reduced modulo 4096 by the memory operations (R51, R176). -/
def State.effAddr (s : State) (k : Nat) : Nat := s.i.toNat + k

/-- The registers V0 to Vx, "inclusive of x", in rising order (R73, R174, R175). -/
def regsUpTo (x : Reg) : List Reg := (List.finRange 16).filter (fun k => k ≤ x)

/-- `for k in 0..x: MemWrite(i + k, 1, V[k])` (R174). -/
def State.storeRegs (s : State) (x : Reg) : State :=
  (regsUpTo x).foldl (fun t k => t.memWrite (s.effAddr k.val) (s.reg k)) s

/-- `for k in 0..x: V[k] <- MemRead(i + k, 1)` (R175). -/
def State.loadRegs (s : State) (x : Reg) : State :=
  (regsUpTo x).foldl (fun t k => t.setReg k (s.memRead (s.effAddr k.val))) s

/-- The query of Ex9E and ExA1: `if vx < 16 then IsPressed(vx) else false` (R202, R203). -/
def State.keyQuery (s : State) (vx : Byte) : Bool :=
  if h : vx.toNat < 16 then s.isPressed ⟨vx.toNat, h⟩ else false

/-- `vx div 100`, 0 to 2 (R173). -/
def bcdHundreds (vx : Byte) : Byte := BitVec.ofNat 8 (vx.toNat / 100)
/-- `(vx div 10) mod 10` (R173). -/
def bcdTens (vx : Byte) : Byte := BitVec.ofNat 8 (vx.toNat / 10 % 10)
/-- `vx mod 10` (R173). -/
def bcdOnes (vx : Byte) : Byte := BitVec.ofNat 8 (vx.toNat % 10)

/-- The points (x, y) a sprite row sets: "bit 7 is the leftmost column" (R201), columns in rising order. -/
def rowPoints (b : Byte) (x y : Nat) : List (Nat × Nat) :=
  ((List.range 8).filter (fun col => b.getLsbD (7 - col))).map (fun col => (x + col, y))

/-- The points Dxyn toggles, in its order: rows from I upward, columns left to right (R201). The
coordinates are the plain sums `vx + col` and `vy + row`. -/
def State.spritePoints (s : State) (vx vy : Byte) (n : Nat) : List (Nat × Nat) :=
  (List.range n).flatMap (fun row => rowPoints (s.memRead (s.effAddr row)) vx.toNat (vy.toNat + row))

end Sys2Proof.Machine
end

