-- ==== Sys2Proof/Machine/Control.lean ====
section
/-! DEFINITION. Control transfer and conditional skips (spec/41_control.md). In the execute phase PC
already holds the fetch address plus 2 (R103, R105). -/

namespace Sys2Proof.Machine

/-- 00EE RET: `PC <- Pop()`; an empty stack raises EmptyStackPop before any write (R121, R222). -/
def execRet (s : State) : Result :=
  match s.stack with
  | [] => .next (s.raiseFault .emptyStackPop (encode .ret))
  | a :: rest => .next ((s.setStack rest).setPc a)

/-- 1nnn JP (R122). -/
def execJp (nnn : Addr) (s : State) : Result := .next (s.setPc nnn)

/-- 2nnn CALL: push the already-advanced PC, then jump (R123). A full stack of finite capacity raises
StackOverflow "before any write of 2nnn" (R223). -/
def execCall (nnn : Addr) (s : State) : Result :=
  if s.stackFull then .next (s.raiseFault .stackOverflow (encode (.call nnn)))
  else .next ((s.push s.pc).setPc nnn)

/-- 3xkk SE_IMM (R124). -/
def execSeImm (x : Reg) (kk : Byte) (s : State) : Result := .next (s.skipIf (s.reg x == kk))

/-- 4xkk SNE_IMM (R125). -/
def execSneImm (x : Reg) (kk : Byte) (s : State) : Result := .next (s.skipIf (s.reg x != kk))

/-- 5xy0 SE_REG (R126). -/
def execSeReg (x y : Reg) (s : State) : Result := .next (s.skipIf (s.reg x == s.reg y))

/-- 9xy0 SNE_REG (R127). -/
def execSneReg (x y : Reg) (s : State) : Result := .next (s.skipIf (s.reg x != s.reg y))

/-- Bnnn JP_V0: `PC <- (nnn + V[0]) mod 4096`, always V0 (R128). -/
def execJpV0 (nnn : Addr) (s : State) : Result := .next (s.setPc (nnn + zext12 (s.reg 0)))

end Sys2Proof.Machine
end

