-- ==== Sys2Proof/Machine/Devices.lean ====
section
/-! DEFINITION. Display and keyboard instructions (spec/45_devices.md). -/

namespace Sys2Proof.Machine

/-- 00E0 CLS (R200). -/
def execCls (s : State) : Result := .next s.clearDisplay

/-- Dxyn DRW: toggle the sprite's points, then write VF once, 1 if any toggle erased a pixel (R201). On a
configuration with no pixel, which R8 excludes, there is no modulus to wrap by: fault `noDisplay`. -/
def execDrw (x y : Reg) (n : Nat) (s : State) : Result :=
  if s.cfg.displayW = 0 ∨ s.cfg.displayH = 0 then .fault .noDisplay
  else
    let drawn := Display.toggleAll s.cfg (s.spritePoints (s.reg x) (s.reg y) n) (s.display, false)
    .next ((s.setDisplay drawn.1).setReg vf (flagByte drawn.2))

/-- Ex9E SKP: skip if key V[x] is pressed; a code of 16 or more is not (R202). -/
def execSkp (x : Reg) (s : State) : Result := .next (s.skipIf (s.keyQuery (s.reg x)))

/-- ExA1 SKNP: skip if key V[x] is not pressed (R203). -/
def execSknp (x : Reg) (s : State) : Result := .next (s.skipIf (!s.keyQuery (s.reg x)))

/-- Fx0A LD_VX_K: `paused <- true; waitReg <- some x` (R204). -/
def execLdVxK (x : Reg) (s : State) : Result := .next (s.setWait (some x))

end Sys2Proof.Machine
end

