-- ==== Sys2Proof/Machine/Index.lean ====
section
/-! DEFINITION. The address register and memory transfers (spec/43_index_memory.md). No transfer
changes I (R176). -/

namespace Sys2Proof.Machine

/-- Annn LD_I (R170). -/
def execLdI (nnn : Addr) (s : State) : Result := .next (s.setI nnn)

/-- Fx1E ADD_I_VX: `I <- (I + vx) mod 4096`, no flag (R171). -/
def execAddIVx (x : Reg) (s : State) : Result := .next (s.setI (s.i + zext12 (s.reg x)))

/-- Fx29 LD_F_VX: `I <- vx * 5`, of all 8 bits of V[x] (R172). -/
def execLdFVx (x : Reg) (s : State) : Result := .next (s.setI (zext12 (s.reg x) * 5))

/-- Fx33 LD_B_VX: the three decimal digits, "each in its own cell" (R173, 90_conflicts.md C1). -/
def execLdBVx (x : Reg) (s : State) : Result :=
  .next (((s.memWrite (s.effAddr 0) (bcdHundreds (s.reg x))).memWrite (s.effAddr 1) (bcdTens (s.reg x))).memWrite
    (s.effAddr 2) (bcdOnes (s.reg x)))

/-- Fx55 LD_MI_VX: store V0 to Vx (R174). -/
def execLdMiVx (x : Reg) (s : State) : Result := .next (s.storeRegs x)

/-- Fx65 LD_VX_MI: load V0 to Vx (R175). -/
def execLdVxMi (x : Reg) (s : State) : Result := .next (s.loadRegs x)

end Sys2Proof.Machine
end

