-- ==== Sys2Proof/Machine/Timers.lean ====
section
/-! DEFINITION. Timer access (spec/44_timers.md). PRESUMED: which opcode moves which timer is general
knowledge that the spec decides (D16, G3); log entry 21. -/

namespace Sys2Proof.Machine

/-- Fx07 LD_VX_DT: `V[x] <- DT` (R190). -/
def execLdVxDt (x : Reg) (s : State) : Result := .next (s.setReg x s.dt)

/-- Fx15 LD_DT_VX: `DT <- V[x]` (R191). -/
def execLdDtVx (x : Reg) (s : State) : Result := .next (s.setDt (s.reg x))

/-- Fx18 LD_ST_VX: `ST <- V[x]` (R192). -/
def execLdStVx (x : Reg) (s : State) : Result := .next (s.setSt (s.reg x))

end Sys2Proof.Machine
end

