-- ==== Sys2Proof/Machine/Cycle.lean ====
section
/-! DEFINITION. The execution cycle and the scheduler (spec/40_cycle.md): fetch, the step of one slot,
the end of a tick, the host's key events between ticks, and the whole tick as R106 writes it. -/

namespace Sys2Proof.Machine

/-! ### One step of the executor (R101) -/

/-- Fetch: "The high byte is at PC and the low byte at PC+1", the address reduced modulo 4096 (R102). -/
def State.fetchWord (s : State) : Word :=
  wordOfBytes (s.memRead s.pc.toNat) (s.memRead (s.pc.toNat + 1))

/-- `Step()` (R101): fetch, advance PC, decode, execute. A word that decodes to Unknown raises
UnknownOpcode after the advance (R221). Decoding of a fetched word is never `tooShort`. -/
def runInstruction (s : State) : Result :=
  match decodeWord s.fetchWord with
  | .instr i => exec i s.advancePc
  | .unknownOpcode w => .next (s.advancePc.raiseFault .unknownOpcode w)
  | .tooShort _ => .next (s.advancePc.raiseFault .unknownOpcode s.fetchWord)

/-! ### Slots and the end of a tick (R106 to R112) -/

/-- The tick is over: the position returns to 0 and the host's action that invoked it is done. -/
def State.leaveTick (s : State) : State :=
  (s.setSlot 0).setHost (match s.host with
    | .tick :: rest => rest
    | other => other)

/-- One slot is used. A fatal fault ends the tick at once (R112). -/
def State.closeSlot (s : State) : State :=
  if s.halted.isSome then s.leaveTick else s.setSlot (s.slot + 1)

/-- One slot of a tick: nothing while paused (R107), else one instruction (R101). -/
def runSlot (s : State) : Result :=
  if s.paused then .next (s.setSlot (s.slot + 1))
  else
    match runInstruction s with
    | .next t => .next t.closeSlot
    | .fault r => .fault r
    | .refused r => .refused r

/-- After the slots: each timer counts down once, then the flush, then `tone <- ST > 0` of the
already-decremented ST (R108 to R111). -/
def State.endTick (s : State) : State :=
  let counted := ((s.setDt (countDown s.dt)).setSt (countDown s.st)).flush
  (counted.setTone (decide (counted.st ≠ 0))).leaveTick

/-! ### The host between ticks (R114, R240) -/

/-- The key event the host delivers next, if the machine is between ticks and a key event comes first:
the state after it (R240). -/
def State.keyEvent (s : State) : Option State :=
  if s.slot = 0 then
    match s.host with
    | .keyDown k :: rest => some ((s.setHost rest).keyDown k)
    | .keyUp k :: rest => some ((s.setHost rest).keyUp k)
    | _ => none
  else none

/-- One step of the whole machine (log entry 10): a key event between ticks (R240); nothing, on a halted
machine (R112, R226); one slot (R106); or, when the slots are used, the end of the tick. -/
def cycle (s : State) : Result :=
  match s.keyEvent with
  | some t => .next t
  | none =>
    if s.halted.isSome then .next s.leaveTick
    else if s.slot < s.cfg.ipt then runSlot s
    else .next s.endTick

/-! ### The tick as the spec writes it (R106) -/

/-- `for slot in 1..IPT`: the loop over the slots that are left, `slot` counting them. A fault leaves it
at once (R112). -/
def tickSlots : Nat → State → Result
  | 0, s => .next s
  | n + 1, s =>
    if s.halted.isSome then .next s
    else if s.paused then tickSlots n (s.setSlot (s.slot + 1))
    else
      match runInstruction s with
      | .next t => tickSlots n (t.setSlot (t.slot + 1))
      | .fault r => .fault r
      | .refused r => .refused r

/-- `Tick()` (R106): the slots, then, unless a fault halted the machine, the timers, the flush and the
tone. -/
def tick (s : State) : Result :=
  match tickSlots s.cfg.ipt s with
  | .next t => .next (if t.halted.isSome then t.leaveTick else t.endTick)
  | .fault r => .fault r
  | .refused r => .refused r

/-! ### The host's load (R242, R262) -/

/-- Write a byte sequence at rising addresses. -/
def State.writeBytes (s : State) (a : Nat) : List Byte → State
  | [] => s
  | b :: rest => (s.memWrite a b).writeBytes (a + 1) rest

/-- `Load(image)`: the image at 0x200, before the first tick; more than 3584 bytes are refused (R262). -/
def load (image : List Byte) (s : State) : Result :=
  if image.length ≤ 3584 then .next (s.writeBytes 0x200 image) else .refused (.imageTooLong image.length)

/-! ### Placing one instruction for the next step -/

/-- The host's actions without the key events that come before its next tick. -/
def dropKeyEvents : List HostAction → List HostAction
  | .keyDown _ :: rest => dropKeyEvents rest
  | .keyUp _ :: rest => dropKeyEvents rest
  | other => other

/-- The state made ready to run a slot: not halted, not paused, a slot of the tick left, and no key
event due before it (log entry 14). -/
def State.readyForSlot (s : State) : State :=
  let c := if s.cfg.ipt = 0 then { s.cfg with ipt := 1 } else s.cfg
  let n := if s.slot < c.ipt then s.slot else 0
  let actions := if n = 0 then dropKeyEvents s.host else s.host
  ((((s.setHalted none).setWait none).setCfg c).setSlot n).setHost actions

/-- The two bytes of a word stored where the next slot fetches them. -/
def State.placeWord (s : State) (w : Word) : State :=
  (s.memWrite s.pc.toNat (hiByte w)).memWrite (s.pc.toNat + 1) (loByte w)

end Sys2Proof.Machine
end

