-- ==== Sys2Proof/Machine/Step.lean ====
section
/-! DEFINITION. The step function of the machine, and how the host places one instruction for it. Both
only call Machine/Cycle.lean. -/

namespace Sys2Proof.Machine

/-- One step: one key event between ticks, one slot of a tick, or the end of a tick. -/
def step (s : State) : Host.Outcome State Fault Refusal := cycle s

/-- `s` with the table's word `w` of `nbits` bits stored at PC and everything set that the very next step
needs to run it (log entry 14). -/
def State.withFetchWord (s : State) (nbits w : Nat) : State := s.readyForSlot.placeWord (tableWord nbits w)

end Sys2Proof.Machine
end

