-- ==== Sys2Proof/Machine/Run.lean ====
section
/-! DEFINITION. A run as the host makes it (spec/60_exceptions.md R235, R240, R243, R245): boot a machine with a
program image, then tick it and deliver key events between the ticks, one action at a time. -/

namespace Sys2Proof.Machine

/-- One whole action of the host on a machine between ticks: the key event that is due (R240), else one tick
(R106). A host with nothing left on its list ticks (R243; log entry 11). -/
def hostAct (s : State) : Result :=
  match s.keyEvent with
  | some t => .next t
  | none => tick s

/-- The first `n` actions of the host. -/
def runHost : Nat → State → Result
  | 0, s => .next s
  | n + 1, s =>
    match hostAct s with
    | .next t => runHost n t
    | .fault r => .fault r
    | .refused r => .refused r

/-- A machine right after reset with its program image loaded and what its host will do (R38, R242, R262):
where a run starts. An image too long is refused. -/
def boot (c : Config) (image : List Byte) (schedule : List HostAction) : Result :=
  load image ((State.powerOn c).setHost schedule)

/-- A run from reset over a whole schedule of ticks with key events between them (R245). -/
def runSchedule (c : Config) (image : List Byte) (schedule : List HostAction) : Result :=
  match boot c image schedule with
  | .next s => runHost schedule.length s
  | .fault r => .fault r
  | .refused r => .refused r

end Sys2Proof.Machine
end

