-- ==== Sys2Proof/Safety.lean ====
section
/-! DEFINITION. What claims speak of: the parts of the state and what a step leaves unchanged, the
invariant of the machine, and the ends of a run (spec/60_exceptions.md R245). -/

namespace Sys2Proof.Machine

/-! ### Frames (spec/00_scope.md R14) -/

/-- The parts of the state a frame speaks of. -/
inductive Part where
  | regs | index | pc | mem | stack | dt | st | wait | halted | display | keys | tone
  | cfg | slot | host | draws
deriving DecidableEq, Repr

/-- Two states agree on a part. Registers and memory are compared through their reads. -/
def Agree (s t : State) : Part → Prop
  | .regs => ∀ r, t.reg r = s.reg r
  | .index => t.i = s.i
  | .pc => t.pc = s.pc
  | .mem => ∀ a, t.memRead a = s.memRead a
  | .stack => t.stack = s.stack
  | .dt => t.dt = s.dt
  | .st => t.st = s.st
  | .wait => t.paused = s.paused ∧ t.waitReg = s.waitReg
  | .halted => t.halted = s.halted
  | .display => t.display = s.display
  | .keys => t.keys = s.keys
  | .tone => t.tone = s.tone
  | .cfg => t.cfg = s.cfg
  | .slot => t.slot = s.slot
  | .host => t.host = s.host
  | .draws => t.draws = s.draws

/-- Every part outside the list is as it was. -/
def KeepsAllBut (changed : List Part) (s t : State) : Prop := ∀ p, p ∉ changed → Agree s t p

/-- Every register outside the list is as it was. -/
def KeepsRegsBut (changed : List Reg) (s t : State) : Prop := ∀ r, r ∉ changed → t.reg r = s.reg r

/-- Every byte of memory is as it was, but for the `count` bytes from address `a` on, reduced modulo 4096. -/
def KeepsBytesBut (a count : Nat) (s t : State) : Prop :=
  ∀ b, (∀ k, k < count → b % 4096 ≠ (a + k) % 4096) → t.memRead b = s.memRead b

/-! ### Words of the statements -/

/-- The pixel (py, px) is under a set bit of the sprite: row py - vy and column px - vx of it, wrapped to the
buffer (R201, R236). -/
def SpriteCovers (s : State) (x y : Reg) (n : Nat) (py px : Nat) : Prop :=
  ∃ row < n, ∃ col < 8, (s.memRead ((s.i.toNat + row) % 4096)).getLsbD (7 - col) = true ∧
    py = ((s.reg y).toNat + row) % s.cfg.displayH ∧ px = ((s.reg x).toNat + col) % s.cfg.displayW

/-- The answer of an instruction with one change made to its next state. -/
def mapNext (f : State → State) : Result → Result
  | .next t => .next (f t)
  | .fault r => .fault r
  | .refused r => .refused r

/-! ### The invariant -/

/-- What every state of a run from a well-formed configuration satisfies: memory and display in canonical
form and in range, `waitReg` set exactly while paused (R30), a halted machine between ticks and not
waiting (R112, R225), the stack within a finite capacity (R223), and the position within the tick (R106). -/
def State.Inv (s : State) : Prop :=
  s.cfg.wf = true ∧ Memory.wf s.cfg s.mem = true ∧ Display.wf s.cfg s.display = true ∧
  s.waitReg.isSome = s.paused ∧
  (s.halted.isSome = true → s.paused = false ∧ s.slot = 0) ∧
  (∀ c, s.cfg.stackCapacity = some c → s.stack.length ≤ c) ∧
  s.slot ≤ s.cfg.ipt

/-! ### Ends of a run (R245) -/

/-- "A state with `halted = some f` is never a good end." -/
def State.GoodEnd (s : State) : Prop := s.halted = none

/-- End 1 of R245: `s` is "the state after the host has invoked t ticks from reset, with a given key-event
schedule between them". The schedule ends with the last of its `t` ticks. -/
def EndsAfterTicks (c : Config) (image : List Byte) (schedule : List HostAction) (t : Nat) (s : State) : Prop :=
  schedule.count .tick = t ∧ (∀ a ∈ schedule.getLast?, a = .tick) ∧ runSchedule c image schedule = .next s

/-- End 1 as a good end: "It is a good end when `halted = none`" (R245). -/
def GoodEndAfterTicks (c : Config) (image : List Byte) (schedule : List HostAction) (t : Nat) (s : State) : Prop :=
  EndsAfterTicks c image schedule t s ∧ s.GoodEnd

/-- What the second end of R245 asks of a state: not halted, not paused, and "the word at PC equal to
`0x1000 | PC`". -/
def State.AtSelfJump (s : State) : Prop :=
  s.halted = none ∧ s.paused = false ∧ s.fetchWord = 0x1000#16 ||| s.pc.zeroExtend 16

/-- `s` is "the first state, between steps" of the run from `start` that is at a self-jump. -/
def FirstSelfJump (start s : State) : Prop :=
  ∃ k, Host.Core.run Sys2Proof.core k start = .next s ∧ s.AtSelfJump ∧
    ∀ j < k, ∀ u : State, Host.Core.run Sys2Proof.core j start = .next u → ¬ u.AtSelfJump

/-- End 2 of R245: the run from reset, with a given key-event schedule, is at a self-jump for the first time. -/
def EndsAtSelfJump (c : Config) (image : List Byte) (schedule : List HostAction) (s : State) : Prop :=
  ∃ start, boot c image schedule = .next start ∧ FirstSelfJump start s

/-! ### Where a step is -/

/-- No key event is due: the machine is inside a tick, or the host's next action is a tick. -/
def State.NoKeyDue (s : State) : Prop := s.keyEvent = none

/-- The next step runs one slot that fetches an instruction (the Ready state of R100, inside a tick). -/
def State.RunsSlot (s : State) : Prop :=
  s.NoKeyDue ∧ s.halted = none ∧ s.paused = false ∧ s.slot < s.cfg.ipt

end Sys2Proof.Machine
end

