-- ==== Sys2Proof/Certificates/Slice0/Obligations.lean ====
section
/-! DEFINITION. The statements for the provers, from the numbered rules of spec/. In every statement `s` is
the state an instruction's execute phase starts from, with PC already advanced (spec/40_cycle.md R103,
R105), unless it speaks of `step`. -/

open Sys2Proof Sys2Proof.Machine

/-! ### Encoding -/

/-- Words written out from the encodings of R82, and words that are Unknown (R75, R77 to R80; the Unknown
words rest on decision D4). A sanity statement. -/
def Obligations.WrittenOutWordsDecode : Prop :=
  decodeWord 0x00EE#16 = .instr .ret ∧ decodeWord 0x2ABC#16 = .instr (.call 0xABC) ∧
  decodeWord 0x3A7F#16 = .instr (.seImm 10 0x7F) ∧ decodeWord 0x9AB0#16 = .instr (.sneReg 10 11) ∧
  decodeWord 0x8014#16 = .instr (.addReg 0 1) ∧ decodeWord 0x8FFE#16 = .instr (.shl 15 15) ∧
  decodeWord 0xC10F#16 = .instr (.rnd 1 0x0F) ∧ decodeWord 0xD126#16 = .instr (.drw 1 2 6) ∧
  decodeWord 0xE5A1#16 = .instr (.sknp 5) ∧ decodeWord 0xFF65#16 = .instr (.ldVxMi 15) ∧
  decodeWord 0x01E0#16 = .unknownOpcode 0x01E0#16 ∧ decodeWord 0x5121#16 = .unknownOpcode 0x5121#16 ∧
  decodeWord 0x8008#16 = .unknownOpcode 0x8008#16 ∧ decodeWord 0xF0FF#16 = .unknownOpcode 0xF0FF#16

/-- Decoding the word of any well-formed instruction, and the bytes of it with anything after them, gives
that instruction back, every operand at every value (R71, R74, R88). -/
def Obligations.DecodeOfEncodeIsTheInstruction : Prop :=
  ∀ i : Instr, i.wf = true →
    decodeWord (encode i) = .instr i ∧ ∀ rest, decodeBytes (encodeBytes i ++ rest) = (.instr i, rest)

/-- A word that decodes is the encoding of what it decodes to (R71, R82, R88), and that instruction is
well-formed: no bit of it is dropped, the y of SHR and SHL included, which is encoded and not read (R150, R152).
For 5xyN and 9xyN with N other than 0 this holds because such a word is Unknown: decision D4 (R77; log
entry 17). -/
def Obligations.EncodeOfDecodeIsTheWord : Prop :=
  ∀ (w : Word) (i : Instr), decodeWord w = .instr i → encode i = w ∧ i.wf = true

/-- The dispatch of R74 to R80 is the opcode map of R82: a word decodes to an instruction whose row it
spells, or it spells no row and is Unknown; and the 34 rows are disjoint. That the rest is Unknown is
decision D4. -/
def Obligations.DecodeFollowsTheOpcodeMap : Prop :=
  opcodeMap.length = 34 ∧
  (∀ w : Word,
    (∃ i, decodeWord w = .instr i ∧ opcodeRow i ∈ opcodeMap ∧ (opcodeRow i).spells w = true) ∨
    (decodeWord w = .unknownOpcode w ∧ ∀ r ∈ opcodeMap, r.spells w = false)) ∧
  ∀ w : Word, ∀ r ∈ opcodeMap, ∀ q ∈ opcodeMap, r.spells w = true → q.spells w = true → r = q

/-! ### The step -/

/-- In a slot that runs, the word is the two bytes at PC and PC + 1 (modulo 4096), high byte first, and the
step is `exec` of the decoded instruction on the state with PC advanced by 2. Around `exec` the step does
this: when the machine runs on, it counts the slot; when the instruction halted it, it ends the tick
(position 0, the host's leading tick done); a fault of `exec` is a fault of the step, and no instruction is
refused (R101 to R104, R112; the reductions are decisions D1 and D2). -/
def Obligations.StepRunsTheDecodedInstruction : Prop :=
  ∀ (s : State) (i : Instr), s.RunsSlot →
    decodeWord (wordOfBytes (s.memRead s.pc.toNat) (s.memRead ((s.pc.toNat + 1) % 4096))) = .instr i →
    (s.setPc (s.pc + 2)).pc.toNat = (s.pc.toNat + 2) % 4096 ∧
    (∀ t, exec i (s.setPc (s.pc + 2)) = .next t → t.halted = none →
      step s = .next (t.setSlot (t.slot + 1))) ∧
    (∀ t f, exec i (s.setPc (s.pc + 2)) = .next t → t.halted = some f → step s = .next t.leaveTick) ∧
    (∀ r, exec i (s.setPc (s.pc + 2)) = .fault r → step s = .fault r) ∧
    (∀ r, exec i (s.setPc (s.pc + 2)) ≠ .refused r)

/-- What the end of a tick does to the position: it returns to 0 and the host's leading `tick` is done; every
other field stays (model's choice, log entries 10 and 11). -/
def Obligations.LeavingATickMovesOnlyThePosition : Prop :=
  ∀ s : State, s.leaveTick.slot = 0 ∧
    (∀ rest, s.host = .tick :: rest → s.leaveTick.host = rest) ∧
    ((∀ rest, s.host ≠ .tick :: rest) → s.leaveTick.host = s.host) ∧
    KeepsAllBut [.slot, .host] s s.leaveTick

/-- A word that decodes to Unknown raises UnknownOpcode: `halted` records the kind, the raw word and the
fetch address, PC holds the address plus 2, the tick ends, and nothing else changes (R221, R225, R112;
decisions D4 and D18). -/
def Obligations.UnknownWordHaltsTheMachine : Prop :=
  ∀ s : State, s.RunsSlot → decodeWord s.fetchWord = .unknownOpcode s.fetchWord →
    ∃ t, step s = .next t ∧ t.halted = some ⟨.unknownOpcode, s.fetchWord, s.pc⟩ ∧
      t.pc.toNat = (s.pc.toNat + 2) % 4096 ∧ t.slot = 0 ∧
      KeepsAllBut [.pc, .halted, .slot, .host] s t

/-- A halted machine: with no key event due, a step changes nothing but the position in the tick (R112,
R226), and no step, a key event included, clears `halted` (R31; decision D18). -/
def Obligations.HaltIsPermanent : Prop :=
  (∀ s : State, s.NoKeyDue → s.halted.isSome = true →
    ∃ t, step s = .next t ∧ KeepsAllBut [.slot, .host] s t) ∧
  (∀ (s t : State) (f : FaultRecord), s.halted = some f → step s = .next t → t.halted = some f)

/-- While paused and not halted, a slot fetches nothing and changes nothing but the position (R107;
decision D23). -/
def Obligations.PausedSlotFetchesNothing : Prop :=
  ∀ s : State, s.NoKeyDue → s.halted = none → s.paused = true → s.slot < s.cfg.ipt →
    ∃ t, step s = .next t ∧ t.slot = s.slot + 1 ∧ KeepsAllBut [.slot] s t

/-- After the slots of a tick, paused or not: DT and ST count down once, stopping at 0, then the tone is
whether the already-decremented ST is positive; memory, registers and the rest stay (R108 to R111). -/
def Obligations.TickEndCountsDownAndSetsTheTone : Prop :=
  ∀ s : State, s.NoKeyDue → s.halted = none → s.cfg.ipt ≤ s.slot →
    ∃ t, step s = .next t ∧ t.dt.toNat = s.dt.toNat - 1 ∧ t.st.toNat = s.st.toNat - 1 ∧
      (t.tone = true ↔ 1 < s.st.toNat) ∧ t.slot = 0 ∧
      KeepsAllBut [.dt, .st, .tone, .slot, .host] s t

/-- A key-down between ticks: the key reads as pressed, no other key changes, and a pending Fx0A is
completed: its register receives the key code and the wait is over. A key-down while not paused only sets
the key (R205, R240; decisions D15 and D24). -/
def Obligations.KeyDownSetsTheKeyAndEndsAWait : Prop :=
  ∀ (s : State) (k : Key) (rest : List HostAction), s.slot = 0 → s.host = .keyDown k :: rest →
    ∃ t, step s = .next t ∧ t.host = rest ∧ t.isPressed k = true ∧
      (∀ j, j ≠ k → t.isPressed j = s.isPressed j) ∧
      (s.paused = false → KeepsAllBut [.keys, .host] s t) ∧
      (∀ x, s.paused = true → s.waitReg = some x →
        (t.reg x).toNat = k.val ∧ KeepsRegsBut [x] s t ∧ t.paused = false ∧ t.waitReg = none ∧
        KeepsAllBut [.regs, .wait, .keys, .host] s t)

/-- A key-up between ticks clears that key and nothing else; it never completes a wait (R205, R240). -/
def Obligations.KeyUpClearsOnlyTheKey : Prop :=
  ∀ (s : State) (k : Key) (rest : List HostAction), s.slot = 0 → s.host = .keyUp k :: rest →
    ∃ t, step s = .next t ∧ t.host = rest ∧ t.isPressed k = false ∧
      (∀ j, j ≠ k → t.isPressed j = s.isPressed j) ∧ KeepsAllBut [.keys, .host] s t

/-- The next step of `s.withFetchWord nbits w` runs the instruction that the table's word decodes to
(model's choice of what placing an instruction sets, log entry 14). -/
def Obligations.PlacedWordIsRunNext : Prop :=
  ∀ (s : State) (nbits w : Nat) (i : Instr), decodeTableWord nbits w = some i →
    (s.withFetchWord nbits w).RunsSlot ∧ (s.withFetchWord nbits w).pc = s.pc ∧
    decodeWord (s.withFetchWord nbits w).fetchWord = .instr i

/-! ### Control transfer -/

/-- 1nnn: every word of group 1 decodes to JP; PC becomes nnn, odd or not, with no stack growth, no flag
written and no fault (R122). -/
def Obligations.JpLoadsThePc : Prop :=
  (∀ w : Word, fieldOp w = 0x1 → decodeWord w = .instr (.jp (fieldNNN w))) ∧
  ∀ (s : State) (nnn : Addr), ∃ t, exec (.jp nnn) s = .next t ∧ t.pc = nnn ∧ t.stack = s.stack ∧
    t.reg vf = s.reg vf ∧ t.halted = s.halted

/-- 00EE with an entry on the stack pops it into PC (R121); with an empty stack it raises EmptyStackPop with
the word 0x00EE and the fetch address, and writes nothing else (R222, R225; decision D18). -/
def Obligations.RetPopsOrRaisesEmptyStackPop : Prop :=
  (∀ (s : State) (a : Addr) (rest : List Addr), s.stack = a :: rest →
    ∃ t, exec .ret s = .next t ∧ t.pc = a ∧ t.stack = rest ∧ t.halted = s.halted) ∧
  (∀ s : State, s.stack = [] →
    ∃ t, exec .ret s = .next t ∧ t.halted = some ⟨.emptyStackPop, 0x00EE, s.pc - 2⟩ ∧
      KeepsAllBut [.halted] s t)

/-- 2nnn pushes the already-advanced PC and jumps (R123); with the source's unbounded stack always (R27), with
a finite capacity while the stack has room. On a full stack of finite capacity it raises StackOverflow and
writes nothing else (R223; decision D19). -/
def Obligations.CallPushesTheReturnAddress : Prop :=
  (∀ (s : State) (nnn : Addr), (∀ c, s.cfg.stackCapacity = some c → s.stack.length < c) →
    ∃ t, exec (.call nnn) s = .next t ∧ t.pc = nnn ∧ t.stack = s.pc :: s.stack ∧ t.halted = s.halted) ∧
  (∀ (s : State) (nnn : Addr) (c : Nat), s.cfg.stackCapacity = some c → c ≤ s.stack.length →
    ∃ t f, exec (.call nnn) s = .next t ∧ t.halted = some f ∧ f.kind = .stackOverflow ∧
      f.word.toNat = 0x2000 + nnn.toNat ∧ f.addr = s.pc - 2 ∧ KeepsAllBut [.halted] s t)

/-- A call, then a return with the stack as the call left it: PC is the address after the call and the stack
is as it was before (R130). -/
def Obligations.CallThenRetReturns : Prop :=
  ∀ (s u : State) (nnn : Addr) (t : State), (∀ c, s.cfg.stackCapacity = some c → s.stack.length < c) →
    exec (.call nnn) s = .next t → u.stack = t.stack →
    ∃ r, exec .ret u = .next r ∧ r.pc = s.pc ∧ r.stack = s.stack

/-- 3xkk, 4xkk, 5xy0, 9xy0: PC plus 2 modulo 4096 when the test holds, and PC as it is when it does not
(R120, R124 to R127; the reduction is decision D2). -/
def Obligations.ComparisonSkips : Prop :=
  ∀ (s : State) (x y : Reg) (kk : Byte),
    (∃ t, exec (.seImm x kk) s = .next t ∧
      t.pc.toNat = if s.reg x = kk then (s.pc.toNat + 2) % 4096 else s.pc.toNat) ∧
    (∃ t, exec (.sneImm x kk) s = .next t ∧
      t.pc.toNat = if s.reg x = kk then s.pc.toNat else (s.pc.toNat + 2) % 4096) ∧
    (∃ t, exec (.seReg x y) s = .next t ∧
      t.pc.toNat = if s.reg x = s.reg y then (s.pc.toNat + 2) % 4096 else s.pc.toNat) ∧
    (∃ t, exec (.sneReg x y) s = .next t ∧
      t.pc.toNat = if s.reg x = s.reg y then s.pc.toNat else (s.pc.toNat + 2) % 4096)

/-- Bnnn: PC becomes (nnn + V0) modulo 4096 (R128; the reduction is decision D2). -/
def Obligations.JpV0AddsV0 : Prop :=
  ∀ (s : State) (nnn : Addr), ∃ t, exec (.jpV0 nnn) s = .next t ∧
    t.pc.toNat = (nnn.toNat + (s.reg 0).toNat) % 4096

/-! ### Arithmetic and logic -/

/-- 6xkk: every word of group 6 decodes to LD_IMM; V[x] becomes kk, VF is unchanged unless x = F, and no fault
is raised (R142). -/
def Obligations.LdImmLoadsTheImmediate : Prop :=
  (∀ w : Word, fieldOp w = 0x6 → decodeWord w = .instr (.ldImm (fieldX w) (fieldKK w))) ∧
  ∀ (s : State) (x : Reg) (kk : Byte), ∃ t, exec (.ldImm x kk) s = .next t ∧ t.reg x = kk ∧
    (x ≠ vf → t.reg vf = s.reg vf) ∧ t.halted = s.halted

/-- 7xkk: every word of group 7 decodes to ADD_IMM; V[x] becomes (V[x] + kk) mod 256, VF is unchanged
unless x = F, when VF is the destination, and no fault is raised (R143). -/
def Obligations.AddImmWrapsAndSetsNoFlag : Prop :=
  (∀ w : Word, fieldOp w = 0x7 → decodeWord w = .instr (.addImm (fieldX w) (fieldKK w))) ∧
  ∀ (s : State) (x : Reg) (kk : Byte), ∃ t, exec (.addImm x kk) s = .next t ∧
    (t.reg x).toNat = ((s.reg x).toNat + kk.toNat) % 256 ∧ (x ≠ vf → t.reg vf = s.reg vf) ∧
    t.halted = s.halted

/-- 8xy0: every word of group 8 with n = 0 decodes to LD_REG; V[x] becomes V[y]; VF is unchanged unless x = F;
x = y leaves every register unchanged; no fault is raised (R144). -/
def Obligations.LdRegCopies : Prop :=
  (∀ w : Word, fieldOp w = 0x8 → fieldN w = 0x0 → decodeWord w = .instr (.ldReg (fieldX w) (fieldY w))) ∧
  ∀ (s : State) (x y : Reg), ∃ t, exec (.ldReg x y) s = .next t ∧ t.reg x = s.reg y ∧
    (x ≠ vf → t.reg vf = s.reg vf) ∧ (x = y → ∀ r, t.reg r = s.reg r) ∧ t.halted = s.halted

/-- 8xy1, 8xy2, 8xy3: bit by bit OR, AND and XOR, with VF unchanged unless x = F (R145 to R147; that VF is not
reset is decision D20). -/
def Obligations.LogicIsBitwiseAndKeepsVf : Prop :=
  ∀ (s : State) (x y : Reg),
    (∃ t, exec (.orReg x y) s = .next t ∧ (x ≠ vf → t.reg vf = s.reg vf) ∧
      ∀ b, (t.reg x).getLsbD b = ((s.reg x).getLsbD b || (s.reg y).getLsbD b)) ∧
    (∃ t, exec (.andReg x y) s = .next t ∧ (x ≠ vf → t.reg vf = s.reg vf) ∧
      ∀ b, (t.reg x).getLsbD b = ((s.reg x).getLsbD b && (s.reg y).getLsbD b)) ∧
    (∃ t, exec (.xorReg x y) s = .next t ∧ (x ≠ vf → t.reg vf = s.reg vf) ∧
      ∀ b, (t.reg x).getLsbD b = ((s.reg x).getLsbD b ^^ (s.reg y).getLsbD b))

/-- 8xy4: V[x] becomes the sum modulo 256 and VF becomes 1 when the unreduced sum exceeds 255, else 0
(R148). For x = F the flag is what stays: decision D5. -/
def Obligations.AddRegSumAndCarry : Prop :=
  ∀ (s : State) (x y : Reg), ∃ t, exec (.addReg x y) s = .next t ∧
    (x ≠ vf → (t.reg x).toNat = ((s.reg x).toNat + (s.reg y).toNat) % 256) ∧
    (t.reg vf).toNat = if (s.reg x).toNat + (s.reg y).toNat > 255 then 1 else 0

/-- 8xy5 and 8xy7: the difference modulo 256 and VF = 1 when the minuend was strictly greater, else 0
(R140, R149, R151). For x = F the flag is what stays: decision D5. -/
def Obligations.SubtractionsAndStrictFlag : Prop :=
  ∀ (s : State) (x y : Reg),
    (∃ t, exec (.sub x y) s = .next t ∧
      (x ≠ vf → (t.reg x).toNat = ((s.reg x).toNat + 256 - (s.reg y).toNat) % 256) ∧
      (t.reg vf).toNat = if (s.reg x).toNat > (s.reg y).toNat then 1 else 0) ∧
    (∃ t, exec (.subn x y) s = .next t ∧
      (x ≠ vf → (t.reg x).toNat = ((s.reg y).toNat + 256 - (s.reg x).toNat) % 256) ∧
      (t.reg vf).toNat = if (s.reg y).toNat > (s.reg x).toNat then 1 else 0)

/-- 8xy6: V[x] becomes V[x] div 2 and VF its old bit 0; the y field changes nothing (R150). For x = F the
flag is what stays: decision D5. -/
def Obligations.ShrHalvesAndIgnoresY : Prop :=
  ∀ (s : State) (x y : Reg), ∃ t, exec (.shr x y) s = .next t ∧
    (x ≠ vf → (t.reg x).toNat = (s.reg x).toNat / 2) ∧ (t.reg vf).toNat = (s.reg x).toNat % 2 ∧
    ∀ z, exec (.shr x z) s = .next t

/-- 8xyE: V[x] becomes 2 V[x] mod 256; VF becomes 0 when bit 7 was clear and SHL_VF_SET when it was set,
which is 0x01 or 0x80 and left free (R152; decision D6); the y field changes nothing. For x = F the flag is
what stays: decision D5. -/
def Obligations.ShlDoublesAndIgnoresY : Prop :=
  ∀ (s : State) (x y : Reg), ∃ t, exec (.shl x y) s = .next t ∧
    (x ≠ vf → (t.reg x).toNat = 2 * (s.reg x).toNat % 256) ∧
    ((s.reg x).toNat < 128 → t.reg vf = 0) ∧
    (128 ≤ (s.reg x).toNat → t.reg vf = Config.shlVfSet ∧ (t.reg vf = 0x01 ∨ t.reg vf = 0x80)) ∧
    ∀ z, exec (.shl x z) s = .next t

/-- Cxkk: V[x] becomes the next random byte, whatever it is, masked by kk, so it has 0 wherever kk has 0, and
the draw is used up (R153, R154; the draw is a free value, decision D17). -/
def Obligations.RndMasksAFreeByte : Prop :=
  ∀ (s : State) (x : Reg) (kk : Byte), ∃ t, exec (.rnd x kk) s = .next t ∧
    t.reg x = Config.drawByte s.draws &&& kk ∧ t.reg x &&& ~~~kk = 0 ∧ (kk = 0 → t.reg x = 0) ∧
    t.draws = s.draws + 1

/-! ### Address register and memory -/

/-- Annn: every word of group A decodes to LD_I; I becomes nnn, no flag is written and no fault is raised (R170). -/
def Obligations.LdILoadsI : Prop :=
  (∀ w : Word, fieldOp w = 0xA → decodeWord w = .instr (.ldI (fieldNNN w))) ∧
  ∀ (s : State) (nnn : Addr), ∃ t, exec (.ldI nnn) s = .next t ∧ t.i = nnn ∧ t.reg vf = s.reg vf ∧
    t.halted = s.halted

/-- Fx1E: I becomes (I + V[x]) mod 4096 and VF is unchanged (R171; VF unchanged is decision D20). -/
def Obligations.AddIVxWraps : Prop :=
  ∀ (s : State) (x : Reg), ∃ t, exec (.addIVx x) s = .next t ∧
    t.i.toNat = (s.i.toNat + (s.reg x).toNat) % 4096 ∧ t.reg vf = s.reg vf

/-- Fx29: every word of group F with kk = 0x29 decodes to LD_F_VX; I becomes 5 V[x], of all 8 bits of V[x],
no flag is written and no fault is raised (R172). -/
def Obligations.LdFPointsAtTheSprite : Prop :=
  (∀ w : Word, fieldOp w = 0xF → fieldKK w = 0x29 → decodeWord w = .instr (.ldFVx (fieldX w))) ∧
  ∀ (s : State) (x : Reg), ∃ t, exec (.ldFVx x) s = .next t ∧ t.i.toNat = (s.reg x).toNat * 5 ∧
    t.reg vf = s.reg vf ∧ t.halted = s.halted

/-- Fx33: hundreds, tens and ones of V[x] at I, I + 1 and I + 2 modulo 4096, each in its own cell, and I is
unchanged (R173; 90_conflicts.md C1; the reduction is decision D1). -/
def Obligations.LdBStoresThreeDigits : Prop :=
  ∀ (s : State) (x : Reg), ∃ t, exec (.ldBVx x) s = .next t ∧
    (t.memRead (s.i.toNat % 4096)).toNat = (s.reg x).toNat / 100 ∧
    (t.memRead ((s.i.toNat + 1) % 4096)).toNat = (s.reg x).toNat / 10 % 10 ∧
    (t.memRead ((s.i.toNat + 2) % 4096)).toNat = (s.reg x).toNat % 10 ∧ t.i = s.i

/-- Fx55: the byte at (I + k) mod 4096 is V[k] for every k in 0..x, and I is unchanged (R174; decisions D1 and
D20). -/
def Obligations.LdMiStoresTheBlock : Prop :=
  ∀ (s : State) (x : Reg), ∃ t, exec (.ldMiVx x) s = .next t ∧
    (∀ k, k ≤ x → t.memRead ((s.i.toNat + k.val) % 4096) = s.reg k) ∧ t.i = s.i

/-- Fx65: V[k] is the byte at (I + k) mod 4096 for every k in 0..x, VF included when x = F, every register
above x is unchanged, and I is unchanged (R175; decisions D1 and D20). -/
def Obligations.LdVxMiLoadsTheBlock : Prop :=
  ∀ (s : State) (x : Reg), ∃ t, exec (.ldVxMi x) s = .next t ∧
    (∀ k, k ≤ x → t.reg k = s.memRead ((s.i.toNat + k.val) % 4096)) ∧
    (∀ k, x < k → t.reg k = s.reg k) ∧ t.i = s.i

/-- Fx55, then, with I and memory as it left them and the registers anything, Fx65 with the same x: V0 to Vx
hold their values from before the Fx55 (R177). -/
def Obligations.StoreThenLoadRestoresTheBlock : Prop :=
  ∀ (s t u : State) (x : Reg), exec (.ldMiVx x) s = .next t →
    u.i = s.i → (∀ a, u.memRead a = t.memRead a) →
    ∃ r, exec (.ldVxMi x) u = .next r ∧ ∀ k, k ≤ x → r.reg k = s.reg k

/-- Stored bytes are fetched: after Fx55, a fetch at I + k with k + 1 ≤ x reads V[k] and V[k+1], with no fence
and no delay (R62, R267). -/
def Obligations.StoredBytesAreFetched : Prop :=
  ∀ (s t : State) (x j k : Reg), exec (.ldMiVx x) s = .next t → j.val + 1 = k.val → k ≤ x →
    ∀ a : Addr, a.toNat = (s.i.toNat + j.val) % 4096 →
      (t.setPc a).fetchWord = wordOfBytes (s.reg j) (s.reg k)

/-! ### Timers -/

/-- Fx07 reads DT, Fx15 writes DT, Fx18 writes ST (R190 to R192). Which opcode moves which timer is decision
D16, PRESUMED, log entry 21. -/
def Obligations.TimerMoves : Prop :=
  ∀ (s : State) (x : Reg),
    (∃ t, exec (.ldVxDt x) s = .next t ∧ t.reg x = s.dt ∧ KeepsRegsBut [x] s t ∧ t.dt = s.dt) ∧
    (∃ t, exec (.ldDtVx x) s = .next t ∧ t.dt = s.reg x ∧ t.st = s.st) ∧
    (∃ t, exec (.ldStVx x) s = .next t ∧ t.st = s.reg x ∧ t.dt = s.dt)

/-! ### Display and keyboard -/

/-- 00E0: the word decodes to CLS; every pixel is off afterwards, VF and every other register, memory and the
timers are unchanged, and clearing a clear display changes nothing (R200). -/
def Obligations.ClsTurnsEveryPixelOff : Prop :=
  decodeWord 0x00E0#16 = .instr .cls ∧
  ∀ s : State, ∃ t, exec .cls s = .next t ∧ (∀ py px, t.display.isOn py px = false) ∧
    KeepsAllBut [.display] s t ∧ ((∀ py px, s.display.isOn py px = false) → t = s)

/-- `Toggle(x, y)`: it answers whether the wrapped pixel was on, flips that pixel and no other, and behaves at
x + DISPLAY_W and y + DISPLAY_H as at x and y (R236; decisions D8 and D28). -/
def Obligations.ToggleWrapsAndFlipsOnePixel : Prop :=
  ∀ (c : Config) (d : Display) (x y : Nat), c.wf = true →
    (Display.toggle c d x y).2 = d.isOn (y % c.displayH) (x % c.displayW) ∧
    (∀ py px, (Display.toggle c d x y).1.isOn py px =
      if py = y % c.displayH ∧ px = x % c.displayW then !d.isOn py px else d.isOn py px) ∧
    Display.toggle c d (x + c.displayW) y = Display.toggle c d x y ∧
    Display.toggle c d x (y + c.displayH) = Display.toggle c d x y

/-- Dxyn on a display of at least 8 columns and n rows: a pixel under a set bit of the sprite is flipped, every
other pixel is as it was, and VF is 1 exactly when a flipped pixel was on, else 0 (R201, R8). The bit order
and the operands for x or y = F are decision D7 (log entry 19); that a row's address wraps modulo 4096 is
decision D1 (log entry 15); that coordinates wrap to a buffer of any size is decision D8. Smaller displays, on
which two bits of one sprite can share a pixel, are left to DrwCompletesOnEveryDisplay. -/
def Obligations.DrwXorsTheSpriteAndReportsCollision : Prop :=
  ∀ (s : State) (x y : Reg) (n : Nat), 8 ≤ s.cfg.displayW → n ≤ s.cfg.displayH → 0 < s.cfg.displayH →
    ∃ t, exec (.drw x y n) s = .next t ∧
      (∀ py px, (SpriteCovers s x y n py px → t.display.isOn py px = !s.display.isOn py px) ∧
        (¬ SpriteCovers s x y n py px → t.display.isOn py px = s.display.isOn py px)) ∧
      ((∃ py px, SpriteCovers s x y n py px ∧ s.display.isOn py px = true) → t.reg vf = 1) ∧
      ((¬ ∃ py px, SpriteCovers s x y n py px ∧ s.display.isOn py px = true) → t.reg vf = 0)

/-- Dxyn completes on every display with a pixel, however small, writing VF 0 or 1, and 0 when n = 0 (R201, R8).
On a configuration without a pixel, which R8 excludes, it stops by name: the model's choice, log entry 26. -/
def Obligations.DrwCompletesOnEveryDisplay : Prop :=
  ∀ (s : State) (x y : Reg) (n : Nat),
    (s.cfg.wf = true → ∃ t, exec (.drw x y n) s = .next t ∧ (t.reg vf = 0 ∨ t.reg vf = 1) ∧
      (n = 0 → t.reg vf = 0 ∧ t.display = s.display)) ∧
    (s.cfg.wf = false → exec (.drw x y n) s = .fault .noDisplay)

/-- Drawing the same sprite twice at the same place restores the display (R201), for x and y other than F,
whose V a draw does not change. -/
def Obligations.DrawingTwiceRestoresTheDisplay : Prop :=
  ∀ (s t u : State) (x y : Reg) (n : Nat), x ≠ vf → y ≠ vf → Display.wf s.cfg s.display = true →
    exec (.drw x y n) s = .next t → exec (.drw x y n) t = .next u → u.display = s.display

/-- Ex9E skips when V[x] is the code of a pressed key, ExA1 when it is not; a code of 16 or more is not
pressed (R202, R203; decision D14). -/
def Obligations.KeySkips : Prop :=
  ∀ (s : State) (x : Reg),
    (∃ t, exec (.skp x) s = .next t ∧
      ((∃ k : Key, k.val = (s.reg x).toNat ∧ s.isPressed k = true) → t.pc.toNat = (s.pc.toNat + 2) % 4096) ∧
      ((¬ ∃ k : Key, k.val = (s.reg x).toNat ∧ s.isPressed k = true) → t.pc = s.pc)) ∧
    (∃ t, exec (.sknp x) s = .next t ∧
      ((∃ k : Key, k.val = (s.reg x).toNat ∧ s.isPressed k = true) → t.pc = s.pc) ∧
      ((¬ ∃ k : Key, k.val = (s.reg x).toNat ∧ s.isPressed k = true) → t.pc.toNat = (s.pc.toNat + 2) % 4096))

/-- Fx0A pauses the machine with V[x] as the register to write, and writes no register now, a held key or not
(R204; decision D24). -/
def Obligations.LdVxKPauses : Prop :=
  ∀ (s : State) (x : Reg), ∃ t, exec (.ldVxK x) s = .next t ∧ t.paused = true ∧ t.waitReg = some x ∧
    (∀ r, t.reg r = s.reg r) ∧ t.pc = s.pc

/-! ### Frames (the frame rule R14 is decision D20) -/

/-- The instructions that write V[x] alone, or V[x] and VF, or V0 to Vx, or VF alone: every other register and
every other part of the state, all of memory included, is unchanged, but for the draw that RND uses up and
the display that DRW draws on. That Fx07 is the instruction that writes V[x] alone, from DT, is decision D16,
PRESUMED, log entry 21. -/
def Obligations.RegisterWritersFrame : Prop :=
  ∀ (s t : State) (x y : Reg) (kk : Byte) (n : Nat),
    (∀ i ∈ [Instr.ldImm x kk, .addImm x kk, .ldReg x y, .orReg x y, .andReg x y, .xorReg x y, .ldVxDt x],
      exec i s = .next t → KeepsRegsBut [x] s t ∧ KeepsAllBut [.regs] s t) ∧
    (∀ i ∈ [Instr.addReg x y, .sub x y, .shr x y, .subn x y, .shl x y],
      exec i s = .next t → KeepsRegsBut [x, vf] s t ∧ KeepsAllBut [.regs] s t) ∧
    (exec (.rnd x kk) s = .next t → KeepsRegsBut [x] s t ∧ KeepsAllBut [.regs, .draws] s t) ∧
    (exec (.ldVxMi x) s = .next t → (∀ r, x < r → t.reg r = s.reg r) ∧ KeepsAllBut [.regs] s t) ∧
    (exec (.drw x y n) s = .next t → KeepsRegsBut [vf] s t ∧ KeepsAllBut [.regs, .display] s t)

/-- The jumps and skips change PC alone; CALL with room on the stack and RET with an entry on it change PC and
the stack alone. (When they raise their fault they change `halted` alone: stated with their results.) -/
def Obligations.ControlTransferFrame : Prop :=
  ∀ (s t : State) (x y : Reg) (kk : Byte) (nnn : Addr),
    (∀ i ∈ [Instr.jp nnn, .jpV0 nnn, .seImm x kk, .sneImm x kk, .seReg x y, .sneReg x y, .skp x, .sknp x],
      exec i s = .next t → KeepsAllBut [.pc] s t) ∧
    ((∀ c, s.cfg.stackCapacity = some c → s.stack.length < c) → exec (.call nnn) s = .next t →
      KeepsAllBut [.pc, .stack] s t) ∧
    (s.stack ≠ [] → exec .ret s = .next t → KeepsAllBut [.pc, .stack] s t)

/-- Annn, Fx1E and Fx29 change I alone; Fx15 DT alone; Fx18 ST alone; Fx0A the wait alone; 00E0 the display
alone. That Fx15 writes DT and Fx18 writes ST is decision D16, PRESUMED, log entry 21. -/
def Obligations.SpecialWritersFrame : Prop :=
  ∀ (s t : State) (x : Reg) (nnn : Addr),
    (∀ i ∈ [Instr.ldI nnn, .addIVx x, .ldFVx x], exec i s = .next t → KeepsAllBut [.index] s t) ∧
    (exec (.ldDtVx x) s = .next t → KeepsAllBut [.dt] s t) ∧
    (exec (.ldStVx x) s = .next t → KeepsAllBut [.st] s t) ∧
    (exec (.ldVxK x) s = .next t → KeepsAllBut [.wait] s t) ∧
    (exec .cls s = .next t → KeepsAllBut [.display] s t)

/-- Fx33 changes the three bytes from I on alone, and Fx55 the x + 1 bytes from I on alone, modulo 4096: every
other byte reads as before, and every register and other part is unchanged. -/
def Obligations.StoresFrame : Prop :=
  ∀ (s t : State) (x : Reg),
    (exec (.ldBVx x) s = .next t → KeepsBytesBut (s.effAddr 0) 3 s t ∧ KeepsAllBut [.mem] s t) ∧
    (exec (.ldMiVx x) s = .next t → KeepsBytesBut (s.effAddr 0) (x.val + 1) s t ∧ KeepsAllBut [.mem] s t)

/-! ### Reset and load -/

/-- A new machine of any configuration holds the reset values of R38: the font at 0x000 to 0x04F, zero bytes
elsewhere, registers, timers and I zero, PC 0x200, stack empty, not paused, not halted, display clear, no key
pressed, tone off (R38, R260, R261). Every value but the font's place is a decision of the spec (D9 to D12,
D29; log entries 8 and 9). -/
def Obligations.PowerOnHoldsTheResetValues : Prop :=
  ∀ c : Config,
    (∀ a, ∀ h : a < 80, (State.powerOn c).memRead a = c.font[a]) ∧
    (∀ a, 80 ≤ a → a < 4096 → (State.powerOn c).memRead a = 0) ∧
    (∀ r, (State.powerOn c).reg r = 0) ∧ (State.powerOn c).i = 0 ∧ (State.powerOn c).pc = 0x200 ∧
    (State.powerOn c).stack = [] ∧ (State.powerOn c).dt = 0 ∧ (State.powerOn c).st = 0 ∧
    (State.powerOn c).paused = false ∧ (State.powerOn c).waitReg = none ∧ (State.powerOn c).halted = none ∧
    (∀ py px, (State.powerOn c).display.isOn py px = false) ∧
    (∀ k, (State.powerOn c).isPressed k = false) ∧ (State.powerOn c).tone = false ∧
    State.reset = State.powerOn Config.reference

/-- `Load(image)`: an image of at most 3584 bytes is written at 0x200 and every other byte and part of the state
stays; a longer one is refused (R262; decision D13). -/
def Obligations.LoadWritesTheImageOrRefuses : Prop :=
  ∀ (s : State) (image : List Byte),
    (image.length ≤ 3584 → ∃ t, load image s = .next t ∧ KeepsAllBut [.mem] s t ∧
      ∀ b, b < 4096 → t.memRead b =
        if 0x200 ≤ b ∧ b < 0x200 + image.length then image.getD (b - 0x200) 0 else s.memRead b) ∧
    (3584 < image.length → load image s = .refused (.imageTooLong image.length))

/-! ### The whole machine -/

/-- The invariant holds of a new machine of every well-formed configuration, and of the machine after reset. -/
def Obligations.InvHoldsAtReset : Prop :=
  (∀ c : Config, c.wf = true → (State.powerOn c).Inv) ∧ State.reset.Inv

/-- Every step keeps the invariant: memory and display stay in canonical form and in range, `waitReg` is set
exactly while paused (R30), a halted machine is between ticks and not waiting (R112), a finite stack stays
within its capacity (R223), and the position stays within the tick (R106). -/
def Obligations.StepKeepsTheInvariant : Prop :=
  ∀ s t : State, s.Inv → step s = .next t → t.Inv

/-- From a state of the invariant the machine never stops outside its own state: every step answers a next
state, the fatal faults included (R225, R226). And every schedule of ticks and key events, on every instance of a
well-formed configuration booted with an image that fits, leads to a state (R243, R245; decision D31; what a
schedule is, is the model's choice, log entry 11). -/
def Obligations.StepAlwaysAnswersANextState : Prop :=
  (∀ s : State, s.Inv → ∃ t, step s = .next t) ∧
  ∀ (c : Config) (image : List Byte) (schedule : List HostAction), c.wf = true → image.length ≤ 3584 →
    ∃ t, runSchedule c image schedule = .next t

/-- "The only way out is a matching key event" (R204, R234): a paused machine stays paused, waiting for the same
register, with PC, registers, memory, I and the stack as they are, unless the step delivers a key-down. -/
def Obligations.OnlyAKeyDownEndsTheWait : Prop :=
  ∀ s t : State, s.paused = true → step s = .next t →
    (∃ k rest, s.slot = 0 ∧ s.host = .keyDown k :: rest) ∨
    (t.paused = true ∧ t.waitReg = s.waitReg ∧ t.pc = s.pc ∧ t.i = s.i ∧ t.stack = s.stack ∧
      (∀ r, t.reg r = s.reg r) ∧ (∀ a, t.memRead a = s.memRead a))

/-- "No instruction writes DT or ST except Fx15 and Fx18, and nothing else changes them except the tick's
decrement" (R193): a step that changes DT runs Fx15 or ends a tick by counting down, and the same for ST
and Fx18. -/
def Obligations.TimersChangeOnlyByTheirInstructionsAndTheTick : Prop :=
  ∀ s t : State, step s = .next t →
    (t.dt ≠ s.dt → (∃ x, decodeWord s.fetchWord = .instr (.ldDtVx x) ∧ t.dt = s.reg x) ∨
      (s.cfg.ipt ≤ s.slot ∧ t.dt.toNat + 1 = s.dt.toNat)) ∧
    (t.st ≠ s.st → (∃ x, decodeWord s.fetchWord = .instr (.ldStVx x) ∧ t.st = s.reg x) ∨
      (s.cfg.ipt ≤ s.slot ∧ t.st.toNat + 1 = s.st.toNat))

/-- A step that changes the call stack runs CALL or RET (R27), and a step that changes a byte of memory runs
Fx33 or Fx55 (R58). -/
def Obligations.StackAndMemoryChangeOnlyByTheirInstructions : Prop :=
  ∀ s t : State, step s = .next t →
    (t.stack ≠ s.stack → (∃ nnn, decodeWord s.fetchWord = .instr (.call nnn)) ∨
      decodeWord s.fetchWord = .instr .ret) ∧
    (∀ a, t.memRead a ≠ s.memRead a → ∃ x, decodeWord s.fetchWord = .instr (.ldBVx x) ∨
      decodeWord s.fetchWord = .instr (.ldMiVx x))

/-- "`keys` is constant for the whole of a tick" (R240; decision D15): only a key event between ticks changes a
key. And no step changes `cfg`: IPT "is fixed for the life of a machine instance" (R113), and that the display
size, the font and the stack capacity are too, as arguments of the model (R7), is the model's choice, log
entry 1. -/
def Obligations.KeysAndConfigurationAreConstantInATick : Prop :=
  ∀ s t : State, step s = .next t → (s.NoKeyDue → t.keys = s.keys) ∧ (0 < s.slot → t.keys = s.keys) ∧ t.cfg = s.cfg

/-- Nothing reads the tone (R36), and no instruction reads ST (R29, R193): an instruction answers the same
whatever they hold, but for ST itself and the instruction that overwrites it. That no timer instruction reads ST,
and that Fx18 is the one that overwrites it, is decision D16, PRESUMED, log entry 21. -/
def Obligations.NoInstructionReadsToneOrST : Prop :=
  ∀ (i : Instr) (s : State) (b : Bool) (v : Byte),
    exec i (s.setTone b) = mapNext (fun t => t.setTone b) (exec i s) ∧
    ((∀ x, i ≠ .ldStVx x) → exec i (s.setSt v) = mapNext (fun t => t.setSt v) (exec i s)) ∧
    (∀ x, i = .ldStVx x → exec i (s.setSt v) = exec i s)

/-- At a self-jump (R245; decision D31) a step that is no key event changes nothing but the timers, the tone and
the position in the tick, and the machine is at the self-jump again. And from the first self-jump of a run on,
every later state of the run, key events included, is at the self-jump, not halted and not paused, and differs
from it in nothing but the timers, the tone, the position and the keys. -/
def Obligations.SelfJumpStaysAtTheSelfJump : Prop :=
  (∀ s t : State, s.AtSelfJump → s.NoKeyDue → step s = .next t →
    t.AtSelfJump ∧ KeepsAllBut [.dt, .st, .tone, .slot, .host] s t) ∧
  ∀ (start s : State), FirstSelfJump start s → ∀ (n : Nat) (t : State),
    Host.Core.run Sys2Proof.core n s = .next t →
      t.AtSelfJump ∧ KeepsAllBut [.dt, .st, .tone, .slot, .host, .keys] s t

/-- The steps of the machine make up the tick of R106: from a state between ticks with no key event due, some
number of steps, at least one and at most IPT + 1, arrives exactly where `tick` does. -/
def Obligations.TheStepsOfATickMakeUpTheTick : Prop :=
  ∀ s : State, s.slot = 0 → s.NoKeyDue →
    ∃ k, 0 < k ∧ k ≤ s.cfg.ipt + 1 ∧ Host.Core.run Sys2Proof.core k s = tick s
end

