-- ==== Sys2Proof/Laws/State.lean ====
section
/-! SUPPORT. One lemma per field per setter, true by `rfl`, so that no later proof unfolds a record
update. -/

namespace Sys2Proof.Machine

variable (s : State)

/-! ### setMem -/

@[simp] theorem State.setMem_mem (m : Memory) : (s.setMem m).mem = m := rfl
@[simp] theorem State.setMem_v (m : Memory) : (s.setMem m).v = s.v := rfl
@[simp] theorem State.setMem_i (m : Memory) : (s.setMem m).i = s.i := rfl
@[simp] theorem State.setMem_pc (m : Memory) : (s.setMem m).pc = s.pc := rfl
@[simp] theorem State.setMem_stack (m : Memory) : (s.setMem m).stack = s.stack := rfl
@[simp] theorem State.setMem_dt (m : Memory) : (s.setMem m).dt = s.dt := rfl
@[simp] theorem State.setMem_st (m : Memory) : (s.setMem m).st = s.st := rfl
@[simp] theorem State.setMem_paused (m : Memory) : (s.setMem m).paused = s.paused := rfl
@[simp] theorem State.setMem_waitReg (m : Memory) : (s.setMem m).waitReg = s.waitReg := rfl
@[simp] theorem State.setMem_halted (m : Memory) : (s.setMem m).halted = s.halted := rfl
@[simp] theorem State.setMem_display (m : Memory) : (s.setMem m).display = s.display := rfl
@[simp] theorem State.setMem_keys (m : Memory) : (s.setMem m).keys = s.keys := rfl
@[simp] theorem State.setMem_tone (m : Memory) : (s.setMem m).tone = s.tone := rfl
@[simp] theorem State.setMem_cfg (m : Memory) : (s.setMem m).cfg = s.cfg := rfl
@[simp] theorem State.setMem_slot (m : Memory) : (s.setMem m).slot = s.slot := rfl
@[simp] theorem State.setMem_host (m : Memory) : (s.setMem m).host = s.host := rfl
@[simp] theorem State.setMem_draws (m : Memory) : (s.setMem m).draws = s.draws := rfl

/-! ### setV -/

@[simp] theorem State.setV_mem (w : Vector Byte 16) : (s.setV w).mem = s.mem := rfl
@[simp] theorem State.setV_v (w : Vector Byte 16) : (s.setV w).v = w := rfl
@[simp] theorem State.setV_i (w : Vector Byte 16) : (s.setV w).i = s.i := rfl
@[simp] theorem State.setV_pc (w : Vector Byte 16) : (s.setV w).pc = s.pc := rfl
@[simp] theorem State.setV_stack (w : Vector Byte 16) : (s.setV w).stack = s.stack := rfl
@[simp] theorem State.setV_dt (w : Vector Byte 16) : (s.setV w).dt = s.dt := rfl
@[simp] theorem State.setV_st (w : Vector Byte 16) : (s.setV w).st = s.st := rfl
@[simp] theorem State.setV_paused (w : Vector Byte 16) : (s.setV w).paused = s.paused := rfl
@[simp] theorem State.setV_waitReg (w : Vector Byte 16) : (s.setV w).waitReg = s.waitReg := rfl
@[simp] theorem State.setV_halted (w : Vector Byte 16) : (s.setV w).halted = s.halted := rfl
@[simp] theorem State.setV_display (w : Vector Byte 16) : (s.setV w).display = s.display := rfl
@[simp] theorem State.setV_keys (w : Vector Byte 16) : (s.setV w).keys = s.keys := rfl
@[simp] theorem State.setV_tone (w : Vector Byte 16) : (s.setV w).tone = s.tone := rfl
@[simp] theorem State.setV_cfg (w : Vector Byte 16) : (s.setV w).cfg = s.cfg := rfl
@[simp] theorem State.setV_slot (w : Vector Byte 16) : (s.setV w).slot = s.slot := rfl
@[simp] theorem State.setV_host (w : Vector Byte 16) : (s.setV w).host = s.host := rfl
@[simp] theorem State.setV_draws (w : Vector Byte 16) : (s.setV w).draws = s.draws := rfl

/-! ### setI -/

@[simp] theorem State.setI_mem (a : Addr) : (s.setI a).mem = s.mem := rfl
@[simp] theorem State.setI_v (a : Addr) : (s.setI a).v = s.v := rfl
@[simp] theorem State.setI_i (a : Addr) : (s.setI a).i = a := rfl
@[simp] theorem State.setI_pc (a : Addr) : (s.setI a).pc = s.pc := rfl
@[simp] theorem State.setI_stack (a : Addr) : (s.setI a).stack = s.stack := rfl
@[simp] theorem State.setI_dt (a : Addr) : (s.setI a).dt = s.dt := rfl
@[simp] theorem State.setI_st (a : Addr) : (s.setI a).st = s.st := rfl
@[simp] theorem State.setI_paused (a : Addr) : (s.setI a).paused = s.paused := rfl
@[simp] theorem State.setI_waitReg (a : Addr) : (s.setI a).waitReg = s.waitReg := rfl
@[simp] theorem State.setI_halted (a : Addr) : (s.setI a).halted = s.halted := rfl
@[simp] theorem State.setI_display (a : Addr) : (s.setI a).display = s.display := rfl
@[simp] theorem State.setI_keys (a : Addr) : (s.setI a).keys = s.keys := rfl
@[simp] theorem State.setI_tone (a : Addr) : (s.setI a).tone = s.tone := rfl
@[simp] theorem State.setI_cfg (a : Addr) : (s.setI a).cfg = s.cfg := rfl
@[simp] theorem State.setI_slot (a : Addr) : (s.setI a).slot = s.slot := rfl
@[simp] theorem State.setI_host (a : Addr) : (s.setI a).host = s.host := rfl
@[simp] theorem State.setI_draws (a : Addr) : (s.setI a).draws = s.draws := rfl

/-! ### setPc -/

@[simp] theorem State.setPc_mem (a : Addr) : (s.setPc a).mem = s.mem := rfl
@[simp] theorem State.setPc_v (a : Addr) : (s.setPc a).v = s.v := rfl
@[simp] theorem State.setPc_i (a : Addr) : (s.setPc a).i = s.i := rfl
@[simp] theorem State.setPc_pc (a : Addr) : (s.setPc a).pc = a := rfl
@[simp] theorem State.setPc_stack (a : Addr) : (s.setPc a).stack = s.stack := rfl
@[simp] theorem State.setPc_dt (a : Addr) : (s.setPc a).dt = s.dt := rfl
@[simp] theorem State.setPc_st (a : Addr) : (s.setPc a).st = s.st := rfl
@[simp] theorem State.setPc_paused (a : Addr) : (s.setPc a).paused = s.paused := rfl
@[simp] theorem State.setPc_waitReg (a : Addr) : (s.setPc a).waitReg = s.waitReg := rfl
@[simp] theorem State.setPc_halted (a : Addr) : (s.setPc a).halted = s.halted := rfl
@[simp] theorem State.setPc_display (a : Addr) : (s.setPc a).display = s.display := rfl
@[simp] theorem State.setPc_keys (a : Addr) : (s.setPc a).keys = s.keys := rfl
@[simp] theorem State.setPc_tone (a : Addr) : (s.setPc a).tone = s.tone := rfl
@[simp] theorem State.setPc_cfg (a : Addr) : (s.setPc a).cfg = s.cfg := rfl
@[simp] theorem State.setPc_slot (a : Addr) : (s.setPc a).slot = s.slot := rfl
@[simp] theorem State.setPc_host (a : Addr) : (s.setPc a).host = s.host := rfl
@[simp] theorem State.setPc_draws (a : Addr) : (s.setPc a).draws = s.draws := rfl

/-! ### setStack -/

@[simp] theorem State.setStack_mem (l : List Addr) : (s.setStack l).mem = s.mem := rfl
@[simp] theorem State.setStack_v (l : List Addr) : (s.setStack l).v = s.v := rfl
@[simp] theorem State.setStack_i (l : List Addr) : (s.setStack l).i = s.i := rfl
@[simp] theorem State.setStack_pc (l : List Addr) : (s.setStack l).pc = s.pc := rfl
@[simp] theorem State.setStack_stack (l : List Addr) : (s.setStack l).stack = l := rfl
@[simp] theorem State.setStack_dt (l : List Addr) : (s.setStack l).dt = s.dt := rfl
@[simp] theorem State.setStack_st (l : List Addr) : (s.setStack l).st = s.st := rfl
@[simp] theorem State.setStack_paused (l : List Addr) : (s.setStack l).paused = s.paused := rfl
@[simp] theorem State.setStack_waitReg (l : List Addr) : (s.setStack l).waitReg = s.waitReg := rfl
@[simp] theorem State.setStack_halted (l : List Addr) : (s.setStack l).halted = s.halted := rfl
@[simp] theorem State.setStack_display (l : List Addr) : (s.setStack l).display = s.display := rfl
@[simp] theorem State.setStack_keys (l : List Addr) : (s.setStack l).keys = s.keys := rfl
@[simp] theorem State.setStack_tone (l : List Addr) : (s.setStack l).tone = s.tone := rfl
@[simp] theorem State.setStack_cfg (l : List Addr) : (s.setStack l).cfg = s.cfg := rfl
@[simp] theorem State.setStack_slot (l : List Addr) : (s.setStack l).slot = s.slot := rfl
@[simp] theorem State.setStack_host (l : List Addr) : (s.setStack l).host = s.host := rfl
@[simp] theorem State.setStack_draws (l : List Addr) : (s.setStack l).draws = s.draws := rfl

/-! ### setDt -/

@[simp] theorem State.setDt_mem (b : Byte) : (s.setDt b).mem = s.mem := rfl
@[simp] theorem State.setDt_v (b : Byte) : (s.setDt b).v = s.v := rfl
@[simp] theorem State.setDt_i (b : Byte) : (s.setDt b).i = s.i := rfl
@[simp] theorem State.setDt_pc (b : Byte) : (s.setDt b).pc = s.pc := rfl
@[simp] theorem State.setDt_stack (b : Byte) : (s.setDt b).stack = s.stack := rfl
@[simp] theorem State.setDt_dt (b : Byte) : (s.setDt b).dt = b := rfl
@[simp] theorem State.setDt_st (b : Byte) : (s.setDt b).st = s.st := rfl
@[simp] theorem State.setDt_paused (b : Byte) : (s.setDt b).paused = s.paused := rfl
@[simp] theorem State.setDt_waitReg (b : Byte) : (s.setDt b).waitReg = s.waitReg := rfl
@[simp] theorem State.setDt_halted (b : Byte) : (s.setDt b).halted = s.halted := rfl
@[simp] theorem State.setDt_display (b : Byte) : (s.setDt b).display = s.display := rfl
@[simp] theorem State.setDt_keys (b : Byte) : (s.setDt b).keys = s.keys := rfl
@[simp] theorem State.setDt_tone (b : Byte) : (s.setDt b).tone = s.tone := rfl
@[simp] theorem State.setDt_cfg (b : Byte) : (s.setDt b).cfg = s.cfg := rfl
@[simp] theorem State.setDt_slot (b : Byte) : (s.setDt b).slot = s.slot := rfl
@[simp] theorem State.setDt_host (b : Byte) : (s.setDt b).host = s.host := rfl
@[simp] theorem State.setDt_draws (b : Byte) : (s.setDt b).draws = s.draws := rfl

/-! ### setSt -/

@[simp] theorem State.setSt_mem (b : Byte) : (s.setSt b).mem = s.mem := rfl
@[simp] theorem State.setSt_v (b : Byte) : (s.setSt b).v = s.v := rfl
@[simp] theorem State.setSt_i (b : Byte) : (s.setSt b).i = s.i := rfl
@[simp] theorem State.setSt_pc (b : Byte) : (s.setSt b).pc = s.pc := rfl
@[simp] theorem State.setSt_stack (b : Byte) : (s.setSt b).stack = s.stack := rfl
@[simp] theorem State.setSt_dt (b : Byte) : (s.setSt b).dt = s.dt := rfl
@[simp] theorem State.setSt_st (b : Byte) : (s.setSt b).st = b := rfl
@[simp] theorem State.setSt_paused (b : Byte) : (s.setSt b).paused = s.paused := rfl
@[simp] theorem State.setSt_waitReg (b : Byte) : (s.setSt b).waitReg = s.waitReg := rfl
@[simp] theorem State.setSt_halted (b : Byte) : (s.setSt b).halted = s.halted := rfl
@[simp] theorem State.setSt_display (b : Byte) : (s.setSt b).display = s.display := rfl
@[simp] theorem State.setSt_keys (b : Byte) : (s.setSt b).keys = s.keys := rfl
@[simp] theorem State.setSt_tone (b : Byte) : (s.setSt b).tone = s.tone := rfl
@[simp] theorem State.setSt_cfg (b : Byte) : (s.setSt b).cfg = s.cfg := rfl
@[simp] theorem State.setSt_slot (b : Byte) : (s.setSt b).slot = s.slot := rfl
@[simp] theorem State.setSt_host (b : Byte) : (s.setSt b).host = s.host := rfl
@[simp] theorem State.setSt_draws (b : Byte) : (s.setSt b).draws = s.draws := rfl

/-! ### setWait -/

@[simp] theorem State.setWait_mem (w : Option Reg) : (s.setWait w).mem = s.mem := rfl
@[simp] theorem State.setWait_v (w : Option Reg) : (s.setWait w).v = s.v := rfl
@[simp] theorem State.setWait_i (w : Option Reg) : (s.setWait w).i = s.i := rfl
@[simp] theorem State.setWait_pc (w : Option Reg) : (s.setWait w).pc = s.pc := rfl
@[simp] theorem State.setWait_stack (w : Option Reg) : (s.setWait w).stack = s.stack := rfl
@[simp] theorem State.setWait_dt (w : Option Reg) : (s.setWait w).dt = s.dt := rfl
@[simp] theorem State.setWait_st (w : Option Reg) : (s.setWait w).st = s.st := rfl
@[simp] theorem State.setWait_paused (w : Option Reg) : (s.setWait w).paused = w.isSome := rfl
@[simp] theorem State.setWait_waitReg (w : Option Reg) : (s.setWait w).waitReg = w := rfl
@[simp] theorem State.setWait_halted (w : Option Reg) : (s.setWait w).halted = s.halted := rfl
@[simp] theorem State.setWait_display (w : Option Reg) : (s.setWait w).display = s.display := rfl
@[simp] theorem State.setWait_keys (w : Option Reg) : (s.setWait w).keys = s.keys := rfl
@[simp] theorem State.setWait_tone (w : Option Reg) : (s.setWait w).tone = s.tone := rfl
@[simp] theorem State.setWait_cfg (w : Option Reg) : (s.setWait w).cfg = s.cfg := rfl
@[simp] theorem State.setWait_slot (w : Option Reg) : (s.setWait w).slot = s.slot := rfl
@[simp] theorem State.setWait_host (w : Option Reg) : (s.setWait w).host = s.host := rfl
@[simp] theorem State.setWait_draws (w : Option Reg) : (s.setWait w).draws = s.draws := rfl

/-! ### setHalted -/

@[simp] theorem State.setHalted_mem (h : Option FaultRecord) : (s.setHalted h).mem = s.mem := rfl
@[simp] theorem State.setHalted_v (h : Option FaultRecord) : (s.setHalted h).v = s.v := rfl
@[simp] theorem State.setHalted_i (h : Option FaultRecord) : (s.setHalted h).i = s.i := rfl
@[simp] theorem State.setHalted_pc (h : Option FaultRecord) : (s.setHalted h).pc = s.pc := rfl
@[simp] theorem State.setHalted_stack (h : Option FaultRecord) : (s.setHalted h).stack = s.stack := rfl
@[simp] theorem State.setHalted_dt (h : Option FaultRecord) : (s.setHalted h).dt = s.dt := rfl
@[simp] theorem State.setHalted_st (h : Option FaultRecord) : (s.setHalted h).st = s.st := rfl
@[simp] theorem State.setHalted_paused (h : Option FaultRecord) : (s.setHalted h).paused = s.paused := rfl
@[simp] theorem State.setHalted_waitReg (h : Option FaultRecord) : (s.setHalted h).waitReg = s.waitReg := rfl
@[simp] theorem State.setHalted_halted (h : Option FaultRecord) : (s.setHalted h).halted = h := rfl
@[simp] theorem State.setHalted_display (h : Option FaultRecord) : (s.setHalted h).display = s.display := rfl
@[simp] theorem State.setHalted_keys (h : Option FaultRecord) : (s.setHalted h).keys = s.keys := rfl
@[simp] theorem State.setHalted_tone (h : Option FaultRecord) : (s.setHalted h).tone = s.tone := rfl
@[simp] theorem State.setHalted_cfg (h : Option FaultRecord) : (s.setHalted h).cfg = s.cfg := rfl
@[simp] theorem State.setHalted_slot (h : Option FaultRecord) : (s.setHalted h).slot = s.slot := rfl
@[simp] theorem State.setHalted_host (h : Option FaultRecord) : (s.setHalted h).host = s.host := rfl
@[simp] theorem State.setHalted_draws (h : Option FaultRecord) : (s.setHalted h).draws = s.draws := rfl

/-! ### setDisplay -/

@[simp] theorem State.setDisplay_mem (d : Display) : (s.setDisplay d).mem = s.mem := rfl
@[simp] theorem State.setDisplay_v (d : Display) : (s.setDisplay d).v = s.v := rfl
@[simp] theorem State.setDisplay_i (d : Display) : (s.setDisplay d).i = s.i := rfl
@[simp] theorem State.setDisplay_pc (d : Display) : (s.setDisplay d).pc = s.pc := rfl
@[simp] theorem State.setDisplay_stack (d : Display) : (s.setDisplay d).stack = s.stack := rfl
@[simp] theorem State.setDisplay_dt (d : Display) : (s.setDisplay d).dt = s.dt := rfl
@[simp] theorem State.setDisplay_st (d : Display) : (s.setDisplay d).st = s.st := rfl
@[simp] theorem State.setDisplay_paused (d : Display) : (s.setDisplay d).paused = s.paused := rfl
@[simp] theorem State.setDisplay_waitReg (d : Display) : (s.setDisplay d).waitReg = s.waitReg := rfl
@[simp] theorem State.setDisplay_halted (d : Display) : (s.setDisplay d).halted = s.halted := rfl
@[simp] theorem State.setDisplay_display (d : Display) : (s.setDisplay d).display = d := rfl
@[simp] theorem State.setDisplay_keys (d : Display) : (s.setDisplay d).keys = s.keys := rfl
@[simp] theorem State.setDisplay_tone (d : Display) : (s.setDisplay d).tone = s.tone := rfl
@[simp] theorem State.setDisplay_cfg (d : Display) : (s.setDisplay d).cfg = s.cfg := rfl
@[simp] theorem State.setDisplay_slot (d : Display) : (s.setDisplay d).slot = s.slot := rfl
@[simp] theorem State.setDisplay_host (d : Display) : (s.setDisplay d).host = s.host := rfl
@[simp] theorem State.setDisplay_draws (d : Display) : (s.setDisplay d).draws = s.draws := rfl

/-! ### setKeys -/

@[simp] theorem State.setKeys_mem (k : Vector Bool 16) : (s.setKeys k).mem = s.mem := rfl
@[simp] theorem State.setKeys_v (k : Vector Bool 16) : (s.setKeys k).v = s.v := rfl
@[simp] theorem State.setKeys_i (k : Vector Bool 16) : (s.setKeys k).i = s.i := rfl
@[simp] theorem State.setKeys_pc (k : Vector Bool 16) : (s.setKeys k).pc = s.pc := rfl
@[simp] theorem State.setKeys_stack (k : Vector Bool 16) : (s.setKeys k).stack = s.stack := rfl
@[simp] theorem State.setKeys_dt (k : Vector Bool 16) : (s.setKeys k).dt = s.dt := rfl
@[simp] theorem State.setKeys_st (k : Vector Bool 16) : (s.setKeys k).st = s.st := rfl
@[simp] theorem State.setKeys_paused (k : Vector Bool 16) : (s.setKeys k).paused = s.paused := rfl
@[simp] theorem State.setKeys_waitReg (k : Vector Bool 16) : (s.setKeys k).waitReg = s.waitReg := rfl
@[simp] theorem State.setKeys_halted (k : Vector Bool 16) : (s.setKeys k).halted = s.halted := rfl
@[simp] theorem State.setKeys_display (k : Vector Bool 16) : (s.setKeys k).display = s.display := rfl
@[simp] theorem State.setKeys_keys (k : Vector Bool 16) : (s.setKeys k).keys = k := rfl
@[simp] theorem State.setKeys_tone (k : Vector Bool 16) : (s.setKeys k).tone = s.tone := rfl
@[simp] theorem State.setKeys_cfg (k : Vector Bool 16) : (s.setKeys k).cfg = s.cfg := rfl
@[simp] theorem State.setKeys_slot (k : Vector Bool 16) : (s.setKeys k).slot = s.slot := rfl
@[simp] theorem State.setKeys_host (k : Vector Bool 16) : (s.setKeys k).host = s.host := rfl
@[simp] theorem State.setKeys_draws (k : Vector Bool 16) : (s.setKeys k).draws = s.draws := rfl

/-! ### setTone -/

@[simp] theorem State.setTone_mem (b : Bool) : (s.setTone b).mem = s.mem := rfl
@[simp] theorem State.setTone_v (b : Bool) : (s.setTone b).v = s.v := rfl
@[simp] theorem State.setTone_i (b : Bool) : (s.setTone b).i = s.i := rfl
@[simp] theorem State.setTone_pc (b : Bool) : (s.setTone b).pc = s.pc := rfl
@[simp] theorem State.setTone_stack (b : Bool) : (s.setTone b).stack = s.stack := rfl
@[simp] theorem State.setTone_dt (b : Bool) : (s.setTone b).dt = s.dt := rfl
@[simp] theorem State.setTone_st (b : Bool) : (s.setTone b).st = s.st := rfl
@[simp] theorem State.setTone_paused (b : Bool) : (s.setTone b).paused = s.paused := rfl
@[simp] theorem State.setTone_waitReg (b : Bool) : (s.setTone b).waitReg = s.waitReg := rfl
@[simp] theorem State.setTone_halted (b : Bool) : (s.setTone b).halted = s.halted := rfl
@[simp] theorem State.setTone_display (b : Bool) : (s.setTone b).display = s.display := rfl
@[simp] theorem State.setTone_keys (b : Bool) : (s.setTone b).keys = s.keys := rfl
@[simp] theorem State.setTone_tone (b : Bool) : (s.setTone b).tone = b := rfl
@[simp] theorem State.setTone_cfg (b : Bool) : (s.setTone b).cfg = s.cfg := rfl
@[simp] theorem State.setTone_slot (b : Bool) : (s.setTone b).slot = s.slot := rfl
@[simp] theorem State.setTone_host (b : Bool) : (s.setTone b).host = s.host := rfl
@[simp] theorem State.setTone_draws (b : Bool) : (s.setTone b).draws = s.draws := rfl

/-! ### setCfg -/

@[simp] theorem State.setCfg_mem (c : Config) : (s.setCfg c).mem = s.mem := rfl
@[simp] theorem State.setCfg_v (c : Config) : (s.setCfg c).v = s.v := rfl
@[simp] theorem State.setCfg_i (c : Config) : (s.setCfg c).i = s.i := rfl
@[simp] theorem State.setCfg_pc (c : Config) : (s.setCfg c).pc = s.pc := rfl
@[simp] theorem State.setCfg_stack (c : Config) : (s.setCfg c).stack = s.stack := rfl
@[simp] theorem State.setCfg_dt (c : Config) : (s.setCfg c).dt = s.dt := rfl
@[simp] theorem State.setCfg_st (c : Config) : (s.setCfg c).st = s.st := rfl
@[simp] theorem State.setCfg_paused (c : Config) : (s.setCfg c).paused = s.paused := rfl
@[simp] theorem State.setCfg_waitReg (c : Config) : (s.setCfg c).waitReg = s.waitReg := rfl
@[simp] theorem State.setCfg_halted (c : Config) : (s.setCfg c).halted = s.halted := rfl
@[simp] theorem State.setCfg_display (c : Config) : (s.setCfg c).display = s.display := rfl
@[simp] theorem State.setCfg_keys (c : Config) : (s.setCfg c).keys = s.keys := rfl
@[simp] theorem State.setCfg_tone (c : Config) : (s.setCfg c).tone = s.tone := rfl
@[simp] theorem State.setCfg_cfg (c : Config) : (s.setCfg c).cfg = c := rfl
@[simp] theorem State.setCfg_slot (c : Config) : (s.setCfg c).slot = s.slot := rfl
@[simp] theorem State.setCfg_host (c : Config) : (s.setCfg c).host = s.host := rfl
@[simp] theorem State.setCfg_draws (c : Config) : (s.setCfg c).draws = s.draws := rfl

/-! ### setSlot -/

@[simp] theorem State.setSlot_mem (n : Nat) : (s.setSlot n).mem = s.mem := rfl
@[simp] theorem State.setSlot_v (n : Nat) : (s.setSlot n).v = s.v := rfl
@[simp] theorem State.setSlot_i (n : Nat) : (s.setSlot n).i = s.i := rfl
@[simp] theorem State.setSlot_pc (n : Nat) : (s.setSlot n).pc = s.pc := rfl
@[simp] theorem State.setSlot_stack (n : Nat) : (s.setSlot n).stack = s.stack := rfl
@[simp] theorem State.setSlot_dt (n : Nat) : (s.setSlot n).dt = s.dt := rfl
@[simp] theorem State.setSlot_st (n : Nat) : (s.setSlot n).st = s.st := rfl
@[simp] theorem State.setSlot_paused (n : Nat) : (s.setSlot n).paused = s.paused := rfl
@[simp] theorem State.setSlot_waitReg (n : Nat) : (s.setSlot n).waitReg = s.waitReg := rfl
@[simp] theorem State.setSlot_halted (n : Nat) : (s.setSlot n).halted = s.halted := rfl
@[simp] theorem State.setSlot_display (n : Nat) : (s.setSlot n).display = s.display := rfl
@[simp] theorem State.setSlot_keys (n : Nat) : (s.setSlot n).keys = s.keys := rfl
@[simp] theorem State.setSlot_tone (n : Nat) : (s.setSlot n).tone = s.tone := rfl
@[simp] theorem State.setSlot_cfg (n : Nat) : (s.setSlot n).cfg = s.cfg := rfl
@[simp] theorem State.setSlot_slot (n : Nat) : (s.setSlot n).slot = n := rfl
@[simp] theorem State.setSlot_host (n : Nat) : (s.setSlot n).host = s.host := rfl
@[simp] theorem State.setSlot_draws (n : Nat) : (s.setSlot n).draws = s.draws := rfl

/-! ### setHost -/

@[simp] theorem State.setHost_mem (l : List HostAction) : (s.setHost l).mem = s.mem := rfl
@[simp] theorem State.setHost_v (l : List HostAction) : (s.setHost l).v = s.v := rfl
@[simp] theorem State.setHost_i (l : List HostAction) : (s.setHost l).i = s.i := rfl
@[simp] theorem State.setHost_pc (l : List HostAction) : (s.setHost l).pc = s.pc := rfl
@[simp] theorem State.setHost_stack (l : List HostAction) : (s.setHost l).stack = s.stack := rfl
@[simp] theorem State.setHost_dt (l : List HostAction) : (s.setHost l).dt = s.dt := rfl
@[simp] theorem State.setHost_st (l : List HostAction) : (s.setHost l).st = s.st := rfl
@[simp] theorem State.setHost_paused (l : List HostAction) : (s.setHost l).paused = s.paused := rfl
@[simp] theorem State.setHost_waitReg (l : List HostAction) : (s.setHost l).waitReg = s.waitReg := rfl
@[simp] theorem State.setHost_halted (l : List HostAction) : (s.setHost l).halted = s.halted := rfl
@[simp] theorem State.setHost_display (l : List HostAction) : (s.setHost l).display = s.display := rfl
@[simp] theorem State.setHost_keys (l : List HostAction) : (s.setHost l).keys = s.keys := rfl
@[simp] theorem State.setHost_tone (l : List HostAction) : (s.setHost l).tone = s.tone := rfl
@[simp] theorem State.setHost_cfg (l : List HostAction) : (s.setHost l).cfg = s.cfg := rfl
@[simp] theorem State.setHost_slot (l : List HostAction) : (s.setHost l).slot = s.slot := rfl
@[simp] theorem State.setHost_host (l : List HostAction) : (s.setHost l).host = l := rfl
@[simp] theorem State.setHost_draws (l : List HostAction) : (s.setHost l).draws = s.draws := rfl

/-! ### setDraws -/

@[simp] theorem State.setDraws_mem (n : Nat) : (s.setDraws n).mem = s.mem := rfl
@[simp] theorem State.setDraws_v (n : Nat) : (s.setDraws n).v = s.v := rfl
@[simp] theorem State.setDraws_i (n : Nat) : (s.setDraws n).i = s.i := rfl
@[simp] theorem State.setDraws_pc (n : Nat) : (s.setDraws n).pc = s.pc := rfl
@[simp] theorem State.setDraws_stack (n : Nat) : (s.setDraws n).stack = s.stack := rfl
@[simp] theorem State.setDraws_dt (n : Nat) : (s.setDraws n).dt = s.dt := rfl
@[simp] theorem State.setDraws_st (n : Nat) : (s.setDraws n).st = s.st := rfl
@[simp] theorem State.setDraws_paused (n : Nat) : (s.setDraws n).paused = s.paused := rfl
@[simp] theorem State.setDraws_waitReg (n : Nat) : (s.setDraws n).waitReg = s.waitReg := rfl
@[simp] theorem State.setDraws_halted (n : Nat) : (s.setDraws n).halted = s.halted := rfl
@[simp] theorem State.setDraws_display (n : Nat) : (s.setDraws n).display = s.display := rfl
@[simp] theorem State.setDraws_keys (n : Nat) : (s.setDraws n).keys = s.keys := rfl
@[simp] theorem State.setDraws_tone (n : Nat) : (s.setDraws n).tone = s.tone := rfl
@[simp] theorem State.setDraws_cfg (n : Nat) : (s.setDraws n).cfg = s.cfg := rfl
@[simp] theorem State.setDraws_slot (n : Nat) : (s.setDraws n).slot = s.slot := rfl
@[simp] theorem State.setDraws_host (n : Nat) : (s.setDraws n).host = s.host := rfl
@[simp] theorem State.setDraws_draws (n : Nat) : (s.setDraws n).draws = n := rfl

end Sys2Proof.Machine
end

