-- ==== Sys2Proof/Laws/Display.lean ====
section
/-! SUPPORT. The laws of the pixel buffer: what a flip does to every pixel, and that it keeps the
canonical form (spec/60_exceptions.md R236). -/

namespace Sys2Proof.Machine

theorem Display.mem_insert {d : Display} {p q : Nat × Nat} :
    q ∈ Display.insert p d ↔ q = p ∨ q ∈ d := by
  induction d with
  | nil => simp [Display.insert]
  | cons r rest ih =>
    simp only [Display.insert]
    split
    · simp
    · simp only [List.mem_cons, ih]
      tauto

/-- A flip says whether every pixel is on afterwards. -/
theorem Display.mem_flip {d : Display} {p q : Nat × Nat} :
    q ∈ Display.flip d p ↔ if q = p then p ∉ d else q ∈ d := by
  unfold Display.flip
  split
  · next h =>
    by_cases hq : q = p
    · subst hq; simp [h]
    · simp [hq]
  · next h =>
    rw [Display.mem_insert]
    by_cases hq : q = p
    · subst hq; simp [h]
    · simp [hq]

theorem pixelLt_trichotomy {p q : Nat × Nat} (h1 : ¬ pixelLt p q) (h2 : q ≠ p) : pixelLt q p := by
  obtain ⟨a, b⟩ := p
  obtain ⟨c, d⟩ := q
  simp only [pixelLt, ne_eq, Prod.mk.injEq] at *
  omega

theorem pixelLt_trans {p q r : Nat × Nat} (h1 : pixelLt p q) (h2 : pixelLt q r) : pixelLt p r := by
  simp only [pixelLt] at *
  omega

theorem pixelLt_irrefl (p : Nat × Nat) : ¬ pixelLt p p := by
  simp [pixelLt]

theorem Display.pairwise_insert {d : Display} {p : Nat × Nat} (hp : p ∉ d) (h : d.Pairwise pixelLt) :
    (Display.insert p d).Pairwise pixelLt := by
  induction d with
  | nil => simp [Display.insert]
  | cons r rest ih =>
    obtain ⟨hhead, hrest⟩ := List.pairwise_cons.1 h
    simp only [List.mem_cons, not_or] at hp
    simp only [Display.insert]
    split
    · next hlt =>
      refine List.pairwise_cons.2 ⟨?_, h⟩
      intro q hq
      rcases List.mem_cons.1 hq with rfl | hq
      · exact hlt
      · exact pixelLt_trans hlt (hhead q hq)
    · next hlt =>
      refine List.pairwise_cons.2 ⟨?_, ih hp.2 hrest⟩
      intro q hq
      rcases Display.mem_insert.1 hq with rfl | hq
      · exact pixelLt_trichotomy hlt (Ne.symm hp.1)
      · exact hhead q hq

/-- The canonical form as a proposition. -/
theorem Display.wf_iff {c : Config} {d : Display} : Display.wf c d = true ↔
    d.Pairwise pixelLt ∧ ∀ p ∈ d, p.1 < c.displayH ∧ p.2 < c.displayW := decide_eq_true_iff

/-- A configuration is well-formed when its display has a pixel (R8). -/
theorem Config.wf_iff {c : Config} : c.wf = true ↔ 0 < c.displayW ∧ 0 < c.displayH := decide_eq_true_iff

/-- Flipping a pixel inside the buffer keeps the canonical form. -/
theorem Display.wf_flip {c : Config} {d : Display} (h : Display.wf c d) {p : Nat × Nat}
    (hp : p.1 < c.displayH ∧ p.2 < c.displayW) : Display.wf c (Display.flip d p) := by
  rw [Display.wf_iff] at h ⊢
  refine ⟨?_, fun q hq => ?_⟩
  · unfold Display.flip
    split
    · exact h.1.filter _
    · next hmem => exact Display.pairwise_insert hmem h.1
  · have := Display.mem_flip.1 hq
    split at this
    · next heq => exact heq ▸ hp
    · exact h.2 q this

/-- Two canonical displays with the same pixels on are equal. -/
theorem Display.ext {c : Config} {d e : Display} (hd : Display.wf c d) (he : Display.wf c e)
    (h : ∀ p, p ∈ d ↔ p ∈ e) : d = e := by
  have key : ∀ d e : Display, d.Pairwise pixelLt → e.Pairwise pixelLt → (∀ p, p ∈ d ↔ p ∈ e) → d = e := by
    intro d
    induction d with
    | nil =>
      intro e _ _ h
      cases e with
      | nil => rfl
      | cons q _ => exact absurd ((h q).2 (by simp)) (by simp)
    | cons p d ih =>
      intro e hd he h
      cases e with
      | nil => exact absurd ((h p).1 (by simp)) (by simp)
      | cons q e =>
        obtain ⟨hp, hd'⟩ := List.pairwise_cons.1 hd
        obtain ⟨hq, he'⟩ := List.pairwise_cons.1 he
        have hpq : p = q := by
          rcases List.mem_cons.1 ((h p).1 (by simp)) with rfl | hpe
          · rfl
          · rcases List.mem_cons.1 ((h q).2 (by simp)) with rfl | hqd
            · rfl
            · exact absurd (pixelLt_trans (hq p hpe) (hp q hqd)) (pixelLt_irrefl q)
        subst hpq
        congr 1
        refine ih e hd' he' fun r => ?_
        constructor
        · intro hr
          rcases List.mem_cons.1 ((h r).1 (List.mem_cons_of_mem _ hr)) with rfl | hre
          · exact absurd (hp r hr) (pixelLt_irrefl r)
          · exact hre
        · intro hr
          rcases List.mem_cons.1 ((h r).2 (List.mem_cons_of_mem _ hr)) with rfl | hrd
          · exact absurd (hq r hr) (pixelLt_irrefl r)
          · exact hrd
  exact key d e (Display.wf_iff.1 hd).1 (Display.wf_iff.1 he).1 h

theorem Display.wf_toggle {c : Config} (hc : c.wf) {d : Display} (h : Display.wf c d) (x y : Nat) :
    Display.wf c (Display.toggle c d x y).1 :=
  Display.wf_flip h ⟨Nat.mod_lt _ (Config.wf_iff.1 hc).2, Nat.mod_lt _ (Config.wf_iff.1 hc).1⟩

/-- A sprite draw keeps the canonical form. -/
theorem Display.wf_toggleAll {c : Config} (hc : c.wf) (pts : List (Nat × Nat)) (acc : Display × Bool)
    (h : Display.wf c acc.1) : Display.wf c (Display.toggleAll c pts acc).1 := by
  induction pts generalizing acc with
  | nil => exact h
  | cons p rest ih =>
    obtain ⟨d, erased⟩ := acc
    exact ih _ (Display.wf_toggle hc h _ _)

end Sys2Proof.Machine
end

