-- ==== Sys2Proof/Laws/Memory.lean ====
section
/-! SUPPORT. The laws of memory: a read after a write, and that every write keeps the canonical form
(spec/20_memory.md R51, R60). The read laws hold of every list, canonical or not. -/

namespace Sys2Proof.Machine

theorem Memory.lookup_insert (m : Memory) (a b : Nat) (v : Byte) :
    Memory.lookup (Memory.insert a v m) b = if a = b then some v else Memory.lookup m b := by
  induction m with
  | nil => simp [Memory.insert, Memory.lookup]
  | cons cell rest ih =>
    obtain ⟨a', b'⟩ := cell
    simp only [Memory.insert]
    split
    · simp [Memory.lookup]
    · split
      · next h => subst h; simp only [Memory.lookup]; split <;> rfl
      · next h1 h2 =>
        simp only [Memory.lookup, ih]
        split <;> split <;> first | rfl | omega

theorem Memory.lookup_remove (m : Memory) (a b : Nat) :
    Memory.lookup (m.filter (fun cell => cell.1 ≠ a)) b = if a = b then none else Memory.lookup m b := by
  induction m with
  | nil => simp [Memory.lookup]
  | cons cell rest ih =>
    obtain ⟨a', b'⟩ := cell
    by_cases h : a' = a
    · simp only [List.filter_cons, h, ne_eq, not_true_eq_false, decide_false, Bool.false_eq_true, if_false, ih,
        Memory.lookup]
      split <;> rfl
    · simp only [List.filter_cons, ne_eq, h, not_false_eq_true, decide_true, if_true, Memory.lookup]
      simp only [ne_eq] at ih
      rw [ih]
      split <;> split <;> first | rfl | omega

/-- A write says what every address reads afterwards. -/
theorem Memory.read_write (c : Config) (m : Memory) (a b : Nat) (v : Byte) :
    Memory.read c (Memory.write c m a v) b = if a = b then v else Memory.read c m b := by
  unfold Memory.read Memory.write
  split
  · next h =>
    rw [Memory.lookup_remove]
    split
    · next hab => subst hab; simp [h]
    · rfl
  · rw [Memory.lookup_insert]
    split <;> simp

theorem Memory.mem_insert {m : Memory} {a : Nat} {v : Byte} {p : Host.Cell}
    (h : p ∈ Memory.insert a v m) : p = (a, v) ∨ p ∈ m := by
  induction m with
  | nil => simpa [Memory.insert] using h
  | cons cell rest ih =>
    obtain ⟨a', b'⟩ := cell
    simp only [Memory.insert] at h
    split at h
    · simpa using h
    · split at h
      · rcases List.mem_cons.1 h with rfl | h
        · exact .inl rfl
        · exact .inr (List.mem_cons_of_mem _ h)
      · rcases List.mem_cons.1 h with rfl | h
        · exact .inr (by simp)
        · exact (ih h).imp_right (List.mem_cons_of_mem _)

theorem Memory.pairwise_insert {m : Memory} (a : Nat) (v : Byte)
    (h : m.Pairwise (fun p q => p.1 < q.1)) : (Memory.insert a v m).Pairwise (fun p q => p.1 < q.1) := by
  induction m with
  | nil => simp [Memory.insert]
  | cons cell rest ih =>
    obtain ⟨a', b'⟩ := cell
    obtain ⟨hhead, hrest⟩ := List.pairwise_cons.1 h
    simp only [Memory.insert]
    split
    · next hlt =>
      refine List.pairwise_cons.2 ⟨?_, h⟩
      intro q hq
      rcases List.mem_cons.1 hq with rfl | hq
      · exact hlt
      · exact Nat.lt_trans hlt (hhead q hq)
    · split
      · next heq => subst heq; exact List.pairwise_cons.2 ⟨hhead, hrest⟩
      · refine List.pairwise_cons.2 ⟨?_, ih hrest⟩
        intro q hq
        rcases Memory.mem_insert hq with rfl | hq
        · show a' < a; omega
        · exact hhead q hq

/-- The canonical form as a proposition. -/
theorem Memory.wf_iff {c : Config} {m : Memory} : Memory.wf c m = true ↔
    m.Pairwise (fun p q => p.1 < q.1) ∧ ∀ p ∈ m, p.1 < 4096 ∧ p.2 ≠ memReset c p.1 := decide_eq_true_iff

/-- Every write keeps the canonical form. -/
theorem Memory.wf_write {c : Config} {m : Memory} (h : Memory.wf c m) {a : Nat} (ha : a < 4096) (v : Byte) :
    Memory.wf c (Memory.write c m a v) := by
  obtain ⟨hsort, hcells⟩ := Memory.wf_iff.1 h
  rw [Memory.wf_iff]
  unfold Memory.write
  split
  · exact ⟨hsort.filter _, fun p hp => hcells p (List.mem_filter.1 hp).1⟩
  · next hv =>
    refine ⟨Memory.pairwise_insert a v hsort, fun p hp => ?_⟩
    rcases Memory.mem_insert hp with rfl | hp
    · exact ⟨ha, hv⟩
    · exact hcells p hp

/-! ### The same laws, of the machine's read and write -/

/-- A byte read after a write: the byte written at that address (modulo 4096), else the byte before. -/
theorem State.memRead_memWrite (s : State) (a b : Nat) (v : Byte) :
    (s.memWrite a v).memRead b = if a % 4096 = b % 4096 then v else s.memRead b :=
  Memory.read_write _ _ _ _ _

theorem State.memRead_memWrite_same (s : State) (a : Nat) (v : Byte) : (s.memWrite a v).memRead a = v := by
  simp [State.memRead_memWrite]

theorem State.memRead_memWrite_other (s : State) {a b : Nat} (v : Byte) (h : b % 4096 ≠ a % 4096) :
    (s.memWrite a v).memRead b = s.memRead b := by
  rw [State.memRead_memWrite, if_neg (Ne.symm h)]

theorem State.wf_memWrite {s : State} (h : Memory.wf s.cfg s.mem) (a : Nat) (v : Byte) :
    Memory.wf s.cfg (s.memWrite a v).mem :=
  Memory.wf_write h (Nat.mod_lt _ (by decide)) v

/-- The memory of a new machine is canonical: it lists nothing. -/
theorem Memory.wf_powerOn (c : Config) : Memory.wf c (State.powerOn c).mem := by
  simp [Memory.wf_iff, State.powerOn]

/-- A read depends on the memory and the configuration alone. -/
theorem State.memRead_congr {s t : State} (hm : t.mem = s.mem) (hc : t.cfg = s.cfg) (a : Nat) :
    t.memRead a = s.memRead a := by
  simp [State.memRead, hm, hc]

/-- Reading is periodic: an address is reduced modulo 4096 (R51). -/
theorem State.memRead_mod (s : State) (a : Nat) : s.memRead (a % 4096) = s.memRead a := by
  simp [State.memRead]

end Sys2Proof.Machine
end

