-- ==== Sys2Proof/Laws/Ops.lean ====
section
/-! SUPPORT. The laws of registers and of the shared operations: what each reads as afterwards and
which fields it leaves alone. -/

namespace Sys2Proof.Machine

/-! ### Registers -/

/-- A register read after a write: the byte written, or the register before. -/
theorem State.reg_setReg (s : State) (x r : Reg) (b : Byte) :
    (s.setReg x b).reg r = if r = x then b else s.reg r := by
  simp only [State.reg, State.setReg, State.setV_v, Fin.getElem_fin, Vector.getElem_set]
  by_cases h : r = x
  · simp [h]
  · simp [h, Fin.val_ne_of_ne (Ne.symm h)]

@[simp] theorem State.reg_setReg_same (s : State) (x : Reg) (b : Byte) : (s.setReg x b).reg x = b := by
  simp [State.reg_setReg]

theorem State.reg_setReg_other (s : State) {x r : Reg} (b : Byte) (h : r ≠ x) :
    (s.setReg x b).reg r = s.reg r := by
  simp [State.reg_setReg, h]

/-- A result and its flag: VF holds the flag whichever register is the destination (R141). -/
theorem State.reg_setResultFlag (s : State) (x r : Reg) (result flag : Byte) :
    (s.setResultFlag x result flag).reg r = if r = vf then flag else if r = x then result else s.reg r := by
  simp only [State.setResultFlag, State.reg_setReg]

/-! ### Fields a register write leaves alone -/

section
variable (s : State) (x : Reg) (b f : Byte)
@[simp] theorem State.setReg_mem : (s.setReg x b).mem = s.mem := rfl
@[simp] theorem State.setResultFlag_mem : (s.setResultFlag x b f).mem = s.mem := rfl
@[simp] theorem State.setReg_i : (s.setReg x b).i = s.i := rfl
@[simp] theorem State.setResultFlag_i : (s.setResultFlag x b f).i = s.i := rfl
@[simp] theorem State.setReg_pc : (s.setReg x b).pc = s.pc := rfl
@[simp] theorem State.setResultFlag_pc : (s.setResultFlag x b f).pc = s.pc := rfl
@[simp] theorem State.setReg_stack : (s.setReg x b).stack = s.stack := rfl
@[simp] theorem State.setResultFlag_stack : (s.setResultFlag x b f).stack = s.stack := rfl
@[simp] theorem State.setReg_dt : (s.setReg x b).dt = s.dt := rfl
@[simp] theorem State.setResultFlag_dt : (s.setResultFlag x b f).dt = s.dt := rfl
@[simp] theorem State.setReg_st : (s.setReg x b).st = s.st := rfl
@[simp] theorem State.setResultFlag_st : (s.setResultFlag x b f).st = s.st := rfl
@[simp] theorem State.setReg_paused : (s.setReg x b).paused = s.paused := rfl
@[simp] theorem State.setResultFlag_paused : (s.setResultFlag x b f).paused = s.paused := rfl
@[simp] theorem State.setReg_waitReg : (s.setReg x b).waitReg = s.waitReg := rfl
@[simp] theorem State.setResultFlag_waitReg : (s.setResultFlag x b f).waitReg = s.waitReg := rfl
@[simp] theorem State.setReg_halted : (s.setReg x b).halted = s.halted := rfl
@[simp] theorem State.setResultFlag_halted : (s.setResultFlag x b f).halted = s.halted := rfl
@[simp] theorem State.setReg_display : (s.setReg x b).display = s.display := rfl
@[simp] theorem State.setResultFlag_display : (s.setResultFlag x b f).display = s.display := rfl
@[simp] theorem State.setReg_keys : (s.setReg x b).keys = s.keys := rfl
@[simp] theorem State.setResultFlag_keys : (s.setResultFlag x b f).keys = s.keys := rfl
@[simp] theorem State.setReg_tone : (s.setReg x b).tone = s.tone := rfl
@[simp] theorem State.setResultFlag_tone : (s.setResultFlag x b f).tone = s.tone := rfl
@[simp] theorem State.setReg_cfg : (s.setReg x b).cfg = s.cfg := rfl
@[simp] theorem State.setResultFlag_cfg : (s.setResultFlag x b f).cfg = s.cfg := rfl
@[simp] theorem State.setReg_slot : (s.setReg x b).slot = s.slot := rfl
@[simp] theorem State.setResultFlag_slot : (s.setResultFlag x b f).slot = s.slot := rfl
@[simp] theorem State.setReg_host : (s.setReg x b).host = s.host := rfl
@[simp] theorem State.setResultFlag_host : (s.setResultFlag x b f).host = s.host := rfl
@[simp] theorem State.setReg_draws : (s.setReg x b).draws = s.draws := rfl
@[simp] theorem State.setResultFlag_draws : (s.setResultFlag x b f).draws = s.draws := rfl
end

/-! ### Fields a memory write leaves alone -/

section
variable (s : State) (a : Nat) (b : Byte)
@[simp] theorem State.memWrite_v : (s.memWrite a b).v = s.v := rfl
@[simp] theorem State.memWrite_i : (s.memWrite a b).i = s.i := rfl
@[simp] theorem State.memWrite_pc : (s.memWrite a b).pc = s.pc := rfl
@[simp] theorem State.memWrite_stack : (s.memWrite a b).stack = s.stack := rfl
@[simp] theorem State.memWrite_dt : (s.memWrite a b).dt = s.dt := rfl
@[simp] theorem State.memWrite_st : (s.memWrite a b).st = s.st := rfl
@[simp] theorem State.memWrite_paused : (s.memWrite a b).paused = s.paused := rfl
@[simp] theorem State.memWrite_waitReg : (s.memWrite a b).waitReg = s.waitReg := rfl
@[simp] theorem State.memWrite_halted : (s.memWrite a b).halted = s.halted := rfl
@[simp] theorem State.memWrite_display : (s.memWrite a b).display = s.display := rfl
@[simp] theorem State.memWrite_keys : (s.memWrite a b).keys = s.keys := rfl
@[simp] theorem State.memWrite_tone : (s.memWrite a b).tone = s.tone := rfl
@[simp] theorem State.memWrite_cfg : (s.memWrite a b).cfg = s.cfg := rfl
@[simp] theorem State.memWrite_slot : (s.memWrite a b).slot = s.slot := rfl
@[simp] theorem State.memWrite_host : (s.memWrite a b).host = s.host := rfl
@[simp] theorem State.memWrite_draws : (s.memWrite a b).draws = s.draws := rfl
end

/-! ### Reads after a setter of another field -/

section
variable (s : State)
@[simp] theorem State.reg_setMem (m : Memory) (r : Reg) : (s.setMem m).reg r = s.reg r := rfl
@[simp] theorem State.memRead_setV (w : Vector Byte 16) (adr : Nat) : (s.setV w).memRead adr = s.memRead adr := rfl
@[simp] theorem State.reg_setI (a : Addr) (r : Reg) : (s.setI a).reg r = s.reg r := rfl
@[simp] theorem State.memRead_setI (a : Addr) (adr : Nat) : (s.setI a).memRead adr = s.memRead adr := rfl
@[simp] theorem State.reg_setPc (a : Addr) (r : Reg) : (s.setPc a).reg r = s.reg r := rfl
@[simp] theorem State.memRead_setPc (a : Addr) (adr : Nat) : (s.setPc a).memRead adr = s.memRead adr := rfl
@[simp] theorem State.reg_setStack (l : List Addr) (r : Reg) : (s.setStack l).reg r = s.reg r := rfl
@[simp] theorem State.memRead_setStack (l : List Addr) (adr : Nat) : (s.setStack l).memRead adr = s.memRead adr := rfl
@[simp] theorem State.reg_setDt (b : Byte) (r : Reg) : (s.setDt b).reg r = s.reg r := rfl
@[simp] theorem State.memRead_setDt (b : Byte) (adr : Nat) : (s.setDt b).memRead adr = s.memRead adr := rfl
@[simp] theorem State.reg_setSt (b : Byte) (r : Reg) : (s.setSt b).reg r = s.reg r := rfl
@[simp] theorem State.memRead_setSt (b : Byte) (adr : Nat) : (s.setSt b).memRead adr = s.memRead adr := rfl
@[simp] theorem State.reg_setWait (w : Option Reg) (r : Reg) : (s.setWait w).reg r = s.reg r := rfl
@[simp] theorem State.memRead_setWait (w : Option Reg) (adr : Nat) : (s.setWait w).memRead adr = s.memRead adr := rfl
@[simp] theorem State.reg_setHalted (h : Option FaultRecord) (r : Reg) : (s.setHalted h).reg r = s.reg r := rfl
@[simp] theorem State.memRead_setHalted (h : Option FaultRecord) (adr : Nat) : (s.setHalted h).memRead adr = s.memRead adr := rfl
@[simp] theorem State.reg_setDisplay (d : Display) (r : Reg) : (s.setDisplay d).reg r = s.reg r := rfl
@[simp] theorem State.memRead_setDisplay (d : Display) (adr : Nat) : (s.setDisplay d).memRead adr = s.memRead adr := rfl
@[simp] theorem State.reg_setKeys (k : Vector Bool 16) (r : Reg) : (s.setKeys k).reg r = s.reg r := rfl
@[simp] theorem State.memRead_setKeys (k : Vector Bool 16) (adr : Nat) : (s.setKeys k).memRead adr = s.memRead adr := rfl
@[simp] theorem State.reg_setTone (b : Bool) (r : Reg) : (s.setTone b).reg r = s.reg r := rfl
@[simp] theorem State.memRead_setTone (b : Bool) (adr : Nat) : (s.setTone b).memRead adr = s.memRead adr := rfl
@[simp] theorem State.reg_setCfg (c : Config) (r : Reg) : (s.setCfg c).reg r = s.reg r := rfl
@[simp] theorem State.reg_setSlot (n : Nat) (r : Reg) : (s.setSlot n).reg r = s.reg r := rfl
@[simp] theorem State.memRead_setSlot (n : Nat) (adr : Nat) : (s.setSlot n).memRead adr = s.memRead adr := rfl
@[simp] theorem State.reg_setHost (l : List HostAction) (r : Reg) : (s.setHost l).reg r = s.reg r := rfl
@[simp] theorem State.memRead_setHost (l : List HostAction) (adr : Nat) : (s.setHost l).memRead adr = s.memRead adr := rfl
@[simp] theorem State.reg_setDraws (n : Nat) (r : Reg) : (s.setDraws n).reg r = s.reg r := rfl
@[simp] theorem State.memRead_setDraws (n : Nat) (adr : Nat) : (s.setDraws n).memRead adr = s.memRead adr := rfl
@[simp] theorem State.memRead_setReg (x : Reg) (b : Byte) (adr : Nat) : (s.setReg x b).memRead adr = s.memRead adr := rfl
@[simp] theorem State.reg_memWrite (a : Nat) (b : Byte) (r : Reg) : (s.memWrite a b).reg r = s.reg r := rfl
end

/-! ### The shared operations, one lemma each -/

/-- All that a skip can do: PC plus 2, or nothing (R120). -/
theorem State.skipIf_cases (s : State) (c : Bool) :
    (c = true ∧ s.skipIf c = s.setPc (s.pc + 2)) ∨ (c = false ∧ s.skipIf c = s) := by
  cases c
  · exact .inr ⟨rfl, rfl⟩
  · exact .inl ⟨rfl, rfl⟩

/-- All that a key-down can do: the key reads as pressed and, while a wait is pending, its register
receives the key code and the wait is over (R205). -/
theorem State.keyDown_cases (s : State) (k : Key) :
    (s.paused = false ∧ s.keyDown k = s.setKeys (s.keys.set k true)) ∨
    (s.paused = true ∧ ∃ x, s.waitReg = some x ∧
      s.keyDown k = ((s.setKeys (s.keys.set k true)).setReg x (keyCode k)).setWait none) ∨
    (s.paused = true ∧ s.waitReg = none ∧ s.keyDown k = (s.setKeys (s.keys.set k true)).setWait none) := by
  unfold State.keyDown
  cases hp : s.paused
  · exact .inl ⟨rfl, by simp⟩
  · cases hw : s.waitReg with
    | none => exact .inr (.inr ⟨rfl, rfl, by simp⟩)
    | some x => exact .inr (.inl ⟨rfl, x, rfl, by simp⟩)

/-- The key state after one key is set or cleared (R205, R240). -/
theorem State.isPressed_setKeys (s : State) (k j : Key) (b : Bool) :
    (s.setKeys (s.keys.set k b)).isPressed j = if j = k then b else s.isPressed j := by
  simp only [State.isPressed, State.setKeys_keys, Fin.getElem_fin, Vector.getElem_set]
  by_cases h : j = k
  · simp [h]
  · simp [h, Fin.val_ne_of_ne (Ne.symm h)]

/-- Flush changes nothing (R238). -/
@[simp] theorem State.flush_eq (s : State) : s.flush = s := rfl

/-- Counting down stops at 0 (R108). -/
theorem toNat_countDown (b : Byte) : (countDown b).toNat = b.toNat - 1 := by
  unfold countDown
  split
  · next h => subst h; rfl
  · next h =>
    have : b.toNat ≠ 0 := fun h0 => h (BitVec.eq_of_toNat_eq (by simpa using h0))
    have := b.isLt
    bv_omega

/-- PC after its advance, as a number (R103). -/
theorem State.toNat_pc_advancePc (s : State) : s.advancePc.pc.toNat = (s.pc.toNat + 2) % 4096 := by
  simp [State.advancePc]

/-- A fault raised after the advance records the fetch address (R225). -/
theorem State.raiseFault_advancePc_halted (s : State) (k : FaultKind) (w : Word) :
    (s.advancePc.raiseFault k w).halted = some ⟨k, w, s.pc⟩ := by
  simp [State.raiseFault, State.advancePc]

/-- `SHL_VF_SET` is one of its two values and nothing more is known (R152). -/
theorem shlVfSet_cases : Config.shlVfSet = 0x01 ∨ Config.shlVfSet = 0x80 := by
  unfold Config.shlVfSet
  split
  · exact .inr rfl
  · exact .inl rfl

end Sys2Proof.Machine
end

