-- ==== Sys2Proof/Laws/Blocks.lean ====
section
/-! SUPPORT. The laws of the operations that work through a list: storing and loading V0 to Vx
(spec/43_index_memory.md R174, R175), drawing a sprite (spec/45_devices.md R201), writing a program image
(spec/70_reset_and_hazards.md R262). -/

namespace Sys2Proof.Machine

/-! ### The register block -/

@[simp] theorem mem_regsUpTo {x k : Reg} : k ∈ regsUpTo x ↔ k ≤ x := by
  simp [regsUpTo]

theorem nodup_regsUpTo (x : Reg) : (regsUpTo x).Nodup := (List.nodup_finRange 16).filter _

/-- The addresses of two registers of a block are distinct (R177). -/
theorem State.effAddr_mod_inj (s : State) {j k : Reg}
    (h : s.effAddr j.val % 4096 = s.effAddr k.val % 4096) : j = k := by
  have := j.isLt
  have := k.isLt
  simp only [State.effAddr] at h
  exact Fin.ext (by omega)

theorem storeFold_eq (s : State) (l : List Reg) (t : State) :
    ∃ m, l.foldl (fun t k => t.memWrite (s.effAddr k.val) (s.reg k)) t = t.setMem m ∧
      (Memory.wf t.cfg t.mem → Memory.wf t.cfg m) := by
  induction l generalizing t with
  | nil => exact ⟨t.mem, rfl, id⟩
  | cons k l ih =>
    obtain ⟨m, hm, hwf⟩ := ih (t.memWrite (s.effAddr k.val) (s.reg k))
    exact ⟨m, hm, fun h => hwf (State.wf_memWrite h _ _)⟩

/-- A block store changes memory alone, and keeps its canonical form. -/
theorem State.storeRegs_eq (s : State) (x : Reg) :
    ∃ m, s.storeRegs x = s.setMem m ∧ (Memory.wf s.cfg s.mem → Memory.wf s.cfg m) :=
  storeFold_eq s _ s

theorem memRead_storeFold_other (s : State) (l : List Reg) (t : State) (a : Nat)
    (h : ∀ k ∈ l, a % 4096 ≠ s.effAddr k.val % 4096) :
    (l.foldl (fun t k => t.memWrite (s.effAddr k.val) (s.reg k)) t).memRead a = t.memRead a := by
  induction l generalizing t with
  | nil => rfl
  | cons k l ih =>
    rw [List.foldl_cons, ih _ (fun j hj => h j (List.mem_cons_of_mem _ hj)),
      State.memRead_memWrite_other _ _ (h k (by simp))]

theorem memRead_storeFold_same (s : State) (l : List Reg) (hl : l.Nodup) (t : State) {k : Reg} (hk : k ∈ l) :
    (l.foldl (fun t k => t.memWrite (s.effAddr k.val) (s.reg k)) t).memRead (s.effAddr k.val) = s.reg k := by
  induction l generalizing t with
  | nil => simp at hk
  | cons j l ih =>
    obtain ⟨hj, hl'⟩ := List.nodup_cons.1 hl
    rw [List.foldl_cons]
    rcases List.mem_cons.1 hk with rfl | hk
    · rw [memRead_storeFold_other, State.memRead_memWrite_same]
      intro i hi h
      exact hj (State.effAddr_mod_inj s h ▸ hi)
    · exact ih hl' _ hk

/-- The byte at I + k after a block store is V[k] (R174). -/
theorem State.memRead_storeRegs_same (s : State) {x k : Reg} (h : k ≤ x) :
    (s.storeRegs x).memRead (s.effAddr k.val) = s.reg k :=
  memRead_storeFold_same s _ (nodup_regsUpTo x) s (mem_regsUpTo.2 h)

/-- Every other byte is as it was. -/
theorem State.memRead_storeRegs_other (s : State) (x : Reg) (a : Nat)
    (h : ∀ k, k ≤ x → a % 4096 ≠ s.effAddr k.val % 4096) : (s.storeRegs x).memRead a = s.memRead a :=
  memRead_storeFold_other s _ s a (fun k hk => h k (mem_regsUpTo.1 hk))

theorem loadFold_eq (s : State) (l : List Reg) (t : State) :
    ∃ w, l.foldl (fun t k => t.setReg k (s.memRead (s.effAddr k.val))) t = t.setV w := by
  induction l generalizing t with
  | nil => exact ⟨t.v, rfl⟩
  | cons k l ih =>
    obtain ⟨w, hw⟩ := ih (t.setReg k (s.memRead (s.effAddr k.val)))
    exact ⟨w, hw⟩

/-- A block load changes the registers alone. -/
theorem State.loadRegs_eq (s : State) (x : Reg) : ∃ w, s.loadRegs x = s.setV w := loadFold_eq s _ s

theorem reg_loadFold (s : State) (l : List Reg) (t : State) (r : Reg) :
    (l.foldl (fun t k => t.setReg k (s.memRead (s.effAddr k.val))) t).reg r =
      if r ∈ l then s.memRead (s.effAddr r.val) else t.reg r := by
  induction l generalizing t with
  | nil => simp
  | cons k l ih =>
    rw [List.foldl_cons, ih, State.reg_setReg]
    by_cases hrk : r = k
    · subst hrk; simp
    · simp [hrk]

/-- V[r] after a block load: the byte at I + r for r up to x, else the register before (R175). -/
theorem State.reg_loadRegs (s : State) (x r : Reg) :
    (s.loadRegs x).reg r = if r ≤ x then s.memRead (s.effAddr r.val) else s.reg r := by
  rw [State.loadRegs, reg_loadFold]
  simp

/-! ### Sprites -/

/-- The pixel a point of a sprite falls on (R236). -/
def wrapPoint (c : Config) (p : Nat × Nat) : Nat × Nat := (p.2 % c.displayH, p.1 % c.displayW)

theorem Display.toggleAll_cons (c : Config) (p : Nat × Nat) (rest : List (Nat × Nat)) (d : Display) (e : Bool) :
    Display.toggleAll c (p :: rest) (d, e) =
      Display.toggleAll c rest (Display.flip d (wrapPoint c p), e || decide (wrapPoint c p ∈ d)) := rfl

/-- A pixel after a draw: it has changed when an odd number of the points fell on it. -/
theorem Display.mem_toggleAll (c : Config) (pts : List (Nat × Nat)) (d : Display) (e : Bool) (q : Nat × Nat) :
    q ∈ (Display.toggleAll c pts (d, e)).1 ↔
      ((q ∈ d) ↔ (pts.countP (fun p => wrapPoint c p = q)) % 2 = 0) := by
  induction pts generalizing d e with
  | nil => simp [Display.toggleAll]
  | cons p rest ih =>
    rw [Display.toggleAll_cons, ih, Display.mem_flip, List.countP_cons]
    by_cases h : wrapPoint c p = q
    · subst h
      simp only [if_true, decide_true]
      by_cases hd : wrapPoint c p ∈ d
      · simp only [hd, not_true_eq_false, true_iff, false_iff]; omega
      · simp only [hd, not_false_eq_true, true_iff, false_iff]; omega
    · simp [h, Ne.symm h]

/-- Whether a draw erased a pixel, when no two of its points fall on one pixel (R201, R8). -/
theorem Display.erased_toggleAll (c : Config) (pts : List (Nat × Nat)) (d : Display) (e : Bool)
    (h : (pts.map (wrapPoint c)).Nodup) :
    (Display.toggleAll c pts (d, e)).2 = (e || decide (∃ p ∈ pts, wrapPoint c p ∈ d)) := by
  induction pts generalizing d e with
  | nil => simp [Display.toggleAll]
  | cons p rest ih =>
    rw [List.map_cons, List.nodup_cons] at h
    rw [Display.toggleAll_cons, ih _ _ h.2, Bool.or_assoc]
    congr 1
    have hne : ∀ q ∈ rest, (wrapPoint c q ∈ Display.flip d (wrapPoint c p) ↔ wrapPoint c q ∈ d) := by
      intro q hq
      rw [Display.mem_flip, if_neg]
      intro heq
      exact h.1 (heq ▸ List.mem_map_of_mem hq)
    simp only [List.exists_mem_cons_iff, Bool.decide_or]
    congr 1
    exact decide_eq_decide.2 ⟨fun ⟨q, hq, hm⟩ => ⟨q, hq, (hne q hq).1 hm⟩,
      fun ⟨q, hq, hm⟩ => ⟨q, hq, (hne q hq).2 hm⟩⟩

/-- The points of a sprite row. -/
theorem mem_rowPoints {b : Byte} {x y : Nat} {p : Nat × Nat} :
    p ∈ rowPoints b x y ↔ ∃ col < 8, b.getLsbD (7 - col) = true ∧ p = (x + col, y) := by
  simp only [rowPoints, List.mem_map, List.mem_filter, List.mem_range]
  constructor
  · rintro ⟨col, ⟨h1, h2⟩, rfl⟩; exact ⟨col, h1, h2, rfl⟩
  · rintro ⟨col, h1, h2, rfl⟩; exact ⟨col, ⟨h1, h2⟩, rfl⟩

/-- The points of a sprite: a set bit of a row's byte, bit 7 leftmost (R201). -/
theorem State.mem_spritePoints {s : State} {vx vy : Byte} {n : Nat} {p : Nat × Nat} :
    p ∈ s.spritePoints vx vy n ↔ ∃ row < n, ∃ col < 8,
      (s.memRead (s.effAddr row)).getLsbD (7 - col) = true ∧ p = (vx.toNat + col, vy.toNat + row) := by
  simp only [State.spritePoints, List.mem_flatMap, List.mem_range, mem_rowPoints]

/-! ### Program images -/

theorem State.writeBytes_eq (image : List Byte) (a : Nat) (s : State) :
    ∃ m, s.writeBytes a image = s.setMem m ∧ (Memory.wf s.cfg s.mem → Memory.wf s.cfg m) := by
  induction image generalizing a s with
  | nil => exact ⟨s.mem, rfl, id⟩
  | cons b rest ih =>
    obtain ⟨m, hm, hwf⟩ := ih (a + 1) (s.memWrite a b)
    exact ⟨m, hm, fun h => hwf (State.wf_memWrite h _ _)⟩

/-- A byte after an image that does not pass the end of memory is written: the image's byte in its range,
else the byte before (R262). -/
theorem State.memRead_writeBytes (image : List Byte) (a : Nat) (s : State) (h : a + image.length ≤ 4096)
    (b : Nat) (hb : b < 4096) : (s.writeBytes a image).memRead b =
      if a ≤ b ∧ b < a + image.length then image.getD (b - a) 0 else s.memRead b := by
  induction image generalizing a s with
  | nil => simp [State.writeBytes]
  | cons v rest ih =>
    simp only [List.length_cons] at h
    rw [State.writeBytes, ih (a + 1) _ (by omega), State.memRead_memWrite, List.length_cons]
    by_cases h1 : a = b
    · subst h1
      simp
    · have hmod : ¬ a % 4096 = b % 4096 := by omega
      rw [if_neg hmod]
      by_cases h2 : a + 1 ≤ b ∧ b < a + 1 + rest.length
      · rw [if_pos h2, if_pos (by omega), show b - a = (b - (a + 1)) + 1 by omega, List.getD_cons_succ]
      · rw [if_neg h2, if_neg (by omega)]

end Sys2Proof.Machine
end

