-- ==== Sys2Proof/Laws/Decode.lean ====
section
/-! SUPPORT. The laws of fields and encodings: every field as a number, the fields of a packed word, and
what a mask of the opcode map keeps (spec/30_encoding.md R71, R82, R88). -/

namespace Sys2Proof

/-- Concatenation as a number: `a : b` is `a * 2^w + b` (R11). -/
theorem toNat_append_eq {v w : Nat} (x : BitVec v) (y : BitVec w) :
    (x ++ y).toNat = x.toNat * 2 ^ w + y.toNat := by
  rw [BitVec.toNat_append, Nat.shiftLeft_eq, Nat.mul_comm, ← Nat.two_pow_add_eq_or_of_lt y.isLt, Nat.mul_comm]

/-! ### Packed words as numbers (R88) -/

theorem toNat_packNNN (op : BitVec 4) (nnn : Addr) :
    (packNNN op nnn).toNat = op.toNat * 4096 + nnn.toNat := toNat_append_eq op nnn

theorem toNat_packXKK (op : BitVec 4) (x : Reg) (kk : Byte) :
    (packXKK op x kk).toNat = op.toNat * 4096 + x.val * 256 + kk.toNat := by
  have h := toNat_append_eq (op ++ BitVec.ofFin (w := 4) x) kk
  rw [toNat_append_eq op] at h
  refine h.trans ?_
  simp only [BitVec.toNat_ofFin]
  omega

theorem toNat_packXYN (op : BitVec 4) (x y : Reg) (n : BitVec 4) :
    (packXYN op x y n).toNat = op.toNat * 4096 + x.val * 256 + y.val * 16 + n.toNat := by
  have h := toNat_append_eq (op ++ BitVec.ofFin (w := 4) x ++ BitVec.ofFin (w := 4) y) n
  rw [toNat_append_eq (op ++ BitVec.ofFin (w := 4) x), toNat_append_eq op] at h
  refine h.trans ?_
  simp only [BitVec.toNat_ofFin]
  omega

theorem toNat_wordOfBytes (hi lo : Byte) : (wordOfBytes hi lo).toNat = hi.toNat * 256 + lo.toNat :=
  toNat_append_eq hi lo

/-! ### Fields as numbers (R10, R71) -/

theorem toNat_fieldOp (w : Word) : (fieldOp w).toNat = w.toNat / 4096 := by
  have := w.isLt
  simp [fieldOp, Nat.shiftRight_eq_div_pow]
  omega

theorem val_fieldX (w : Word) : (fieldX w).val = w.toNat / 256 % 16 := by
  simp [fieldX, Nat.shiftRight_eq_div_pow]

theorem val_fieldY (w : Word) : (fieldY w).val = w.toNat / 16 % 16 := by
  simp [fieldY, Nat.shiftRight_eq_div_pow]

theorem toNat_fieldN (w : Word) : (fieldN w).toNat = w.toNat % 16 := by
  simp [fieldN]

theorem toNat_fieldKK (w : Word) : (fieldKK w).toNat = w.toNat % 256 := by
  simp [fieldKK]

theorem toNat_fieldNNN (w : Word) : (fieldNNN w).toNat = w.toNat % 4096 := by
  simp [fieldNNN]

theorem toNat_hiByte (w : Word) : (hiByte w).toNat = w.toNat / 256 := by
  have := w.isLt
  simp [hiByte, Nat.shiftRight_eq_div_pow]
  omega

theorem toNat_loByte (w : Word) : (loByte w).toNat = w.toNat % 256 := by
  simp [loByte]

/-- A word is its two bytes (R54). -/
@[simp] theorem wordOfBytes_bytes (w : Word) : wordOfBytes (hiByte w) (loByte w) = w := by
  apply BitVec.eq_of_toNat_eq
  rw [toNat_wordOfBytes, toNat_hiByte, toNat_loByte]
  omega

@[simp] theorem hiByte_wordOfBytes (hi lo : Byte) : hiByte (wordOfBytes hi lo) = hi := by
  apply BitVec.eq_of_toNat_eq
  have := lo.isLt
  rw [toNat_hiByte, toNat_wordOfBytes]
  omega

@[simp] theorem loByte_wordOfBytes (hi lo : Byte) : loByte (wordOfBytes hi lo) = lo := by
  apply BitVec.eq_of_toNat_eq
  have := lo.isLt
  rw [toNat_loByte, toNat_wordOfBytes]
  omega

/-! ### The fields of a packed word -/

section
variable (op : BitVec 4) (x y : Reg) (n : BitVec 4) (kk : Byte) (nnn : Addr)

@[simp] theorem fieldOp_packXYN : fieldOp (packXYN op x y n) = op := by
  apply BitVec.eq_of_toNat_eq
  have := x.isLt; have := y.isLt; have := n.isLt
  rw [toNat_fieldOp, toNat_packXYN]; omega

@[simp] theorem fieldX_packXYN : fieldX (packXYN op x y n) = x := by
  apply Fin.ext
  have := x.isLt; have := y.isLt; have := n.isLt
  rw [val_fieldX, toNat_packXYN]; omega

@[simp] theorem fieldY_packXYN : fieldY (packXYN op x y n) = y := by
  apply Fin.ext
  have := y.isLt; have := n.isLt
  rw [val_fieldY, toNat_packXYN]; omega

@[simp] theorem fieldN_packXYN : fieldN (packXYN op x y n) = n := by
  apply BitVec.eq_of_toNat_eq
  have := n.isLt
  rw [toNat_fieldN, toNat_packXYN]; omega

@[simp] theorem fieldOp_packXKK : fieldOp (packXKK op x kk) = op := by
  apply BitVec.eq_of_toNat_eq
  have := x.isLt; have := kk.isLt
  rw [toNat_fieldOp, toNat_packXKK]; omega

@[simp] theorem fieldX_packXKK : fieldX (packXKK op x kk) = x := by
  apply Fin.ext
  have := x.isLt; have := kk.isLt
  rw [val_fieldX, toNat_packXKK]; omega

@[simp] theorem fieldKK_packXKK : fieldKK (packXKK op x kk) = kk := by
  apply BitVec.eq_of_toNat_eq
  have := kk.isLt
  rw [toNat_fieldKK, toNat_packXKK]; omega

@[simp] theorem fieldOp_packNNN : fieldOp (packNNN op nnn) = op := by
  apply BitVec.eq_of_toNat_eq
  have := nnn.isLt
  rw [toNat_fieldOp, toNat_packNNN]; omega

@[simp] theorem fieldNNN_packNNN : fieldNNN (packNNN op nnn) = nnn := by
  apply BitVec.eq_of_toNat_eq
  have := nnn.isLt
  rw [toNat_fieldNNN, toNat_packNNN]; omega

end

/-! ### A word from its fields -/

theorem packXYN_fields (w : Word) : packXYN (fieldOp w) (fieldX w) (fieldY w) (fieldN w) = w := by
  apply BitVec.eq_of_toNat_eq
  have := w.isLt
  rw [toNat_packXYN, toNat_fieldOp, val_fieldX, val_fieldY, toNat_fieldN]; omega

theorem packXKK_fields (w : Word) : packXKK (fieldOp w) (fieldX w) (fieldKK w) = w := by
  apply BitVec.eq_of_toNat_eq
  have := w.isLt
  rw [toNat_packXKK, toNat_fieldOp, val_fieldX, toNat_fieldKK]; omega

theorem packNNN_fields (w : Word) : packNNN (fieldOp w) (fieldNNN w) = w := by
  apply BitVec.eq_of_toNat_eq
  have := w.isLt
  rw [toNat_packNNN, toNat_fieldOp, toNat_fieldNNN]; omega

/-! ### What a mask of the opcode map keeps (R82) -/

theorem mask_packNNN (op : BitVec 4) (nnn : Addr) : packNNN op nnn &&& 0xF000#16 = packNNN op 0 := by
  show (op ++ nnn) &&& (0xF#4 ++ 0x000#12) = op ++ 0x000#12
  rw [BitVec.and_append, BitVec.and_zero, show (0xF#4) = BitVec.allOnes 4 from rfl, BitVec.and_allOnes]

theorem mask_packXKK (op : BitVec 4) (x : Reg) (kk : Byte) :
    packXKK op x kk &&& 0xF0FF#16 = packXKK op 0 kk := by
  show (op ++ BitVec.ofFin (w := 4) x ++ kk) &&& (0xF#4 ++ 0x0#4 ++ 0xFF#8) = op ++ 0x0#4 ++ kk
  rw [BitVec.and_append, BitVec.and_append, BitVec.and_zero, show (0xF#4) = BitVec.allOnes 4 from rfl,
    show (0xFF#8) = BitVec.allOnes 8 from rfl, BitVec.and_allOnes, BitVec.and_allOnes]

theorem mask_packXYN (op : BitVec 4) (x y : Reg) (n : BitVec 4) :
    packXYN op x y n &&& 0xF00F#16 = packXYN op 0 0 n := by
  show (op ++ BitVec.ofFin (w := 4) x ++ BitVec.ofFin (w := 4) y ++ n) &&& (0xF#4 ++ 0x0#4 ++ 0x0#4 ++ 0xF#4) =
    op ++ 0x0#4 ++ 0x0#4 ++ n
  rw [BitVec.and_append, BitVec.and_append, BitVec.and_append, BitVec.and_zero, BitVec.and_zero,
    show (0xF#4) = BitVec.allOnes 4 from rfl, BitVec.and_allOnes, BitVec.and_allOnes]

/-- A word spells a row of mask 0xF000 when its high nibble is the row's. -/
theorem mask_op (w : Word) : w &&& 0xF000#16 = packNNN (fieldOp w) 0 := by
  conv_lhs => rw [← packNNN_fields w]
  exact mask_packNNN _ _

/-- A word spells a row of mask 0xF0FF by its high nibble and low byte. -/
theorem mask_op_kk (w : Word) : w &&& 0xF0FF#16 = packXKK (fieldOp w) 0 (fieldKK w) := by
  conv_lhs => rw [← packXKK_fields w]
  exact mask_packXKK _ _ _

/-- A word spells a row of mask 0xF00F by its high and low nibbles. -/
theorem mask_op_n (w : Word) : w &&& 0xF00F#16 = packXYN (fieldOp w) 0 0 (fieldN w) := by
  conv_lhs => rw [← packXYN_fields w]
  exact mask_packXYN _ _ _ _

/-! ### Decoding, one lemma per high nibble (R74 to R80) -/

section
variable {w : Word}
theorem decodeWord_op0 (h : fieldOp w = 0x0#4) : decodeWord w = decodeGroup0 w := by
  simp [decodeWord, h]
theorem decodeWord_op1 (h : fieldOp w = 0x1#4) : decodeWord w = .instr (.jp (fieldNNN w)) := by
  simp [decodeWord, h]
theorem decodeWord_op2 (h : fieldOp w = 0x2#4) : decodeWord w = .instr (.call (fieldNNN w)) := by
  simp [decodeWord, h]
theorem decodeWord_op3 (h : fieldOp w = 0x3#4) : decodeWord w = .instr (.seImm (fieldX w) (fieldKK w)) := by
  simp [decodeWord, h]
theorem decodeWord_op4 (h : fieldOp w = 0x4#4) : decodeWord w = .instr (.sneImm (fieldX w) (fieldKK w)) := by
  simp [decodeWord, h]
theorem decodeWord_op5 (h : fieldOp w = 0x5#4) : decodeWord w = decodeNZero w (.seReg (fieldX w) (fieldY w)) := by
  simp [decodeWord, h]
theorem decodeWord_op6 (h : fieldOp w = 0x6#4) : decodeWord w = .instr (.ldImm (fieldX w) (fieldKK w)) := by
  simp [decodeWord, h]
theorem decodeWord_op7 (h : fieldOp w = 0x7#4) : decodeWord w = .instr (.addImm (fieldX w) (fieldKK w)) := by
  simp [decodeWord, h]
theorem decodeWord_op8 (h : fieldOp w = 0x8#4) : decodeWord w = decodeGroup8 w := by
  simp [decodeWord, h]
theorem decodeWord_op9 (h : fieldOp w = 0x9#4) : decodeWord w = decodeNZero w (.sneReg (fieldX w) (fieldY w)) := by
  simp [decodeWord, h]
theorem decodeWord_opA (h : fieldOp w = 0xA#4) : decodeWord w = .instr (.ldI (fieldNNN w)) := by
  simp [decodeWord, h]
theorem decodeWord_opB (h : fieldOp w = 0xB#4) : decodeWord w = .instr (.jpV0 (fieldNNN w)) := by
  simp [decodeWord, h]
theorem decodeWord_opC (h : fieldOp w = 0xC#4) : decodeWord w = .instr (.rnd (fieldX w) (fieldKK w)) := by
  simp [decodeWord, h]
theorem decodeWord_opD (h : fieldOp w = 0xD#4) : decodeWord w = .instr (.drw (fieldX w) (fieldY w) (fieldN w).toNat) := by
  simp [decodeWord, h]
theorem decodeWord_opE (h : fieldOp w = 0xE#4) : decodeWord w = decodeGroupE w := by
  simp [decodeWord, h]
theorem decodeWord_opF (h : fieldOp w = 0xF#4) : decodeWord w = decodeGroupF w := by
  simp [decodeWord, h]
end

/-- The high nibble has one of its 16 values. -/
theorem fieldOp_cases (w : Word) :
    fieldOp w = 0x0#4 ∨ fieldOp w = 0x1#4 ∨ fieldOp w = 0x2#4 ∨ fieldOp w = 0x3#4 ∨ fieldOp w = 0x4#4 ∨ fieldOp w = 0x5#4 ∨ fieldOp w = 0x6#4 ∨ fieldOp w = 0x7#4 ∨
    fieldOp w = 0x8#4 ∨ fieldOp w = 0x9#4 ∨ fieldOp w = 0xA#4 ∨ fieldOp w = 0xB#4 ∨ fieldOp w = 0xC#4 ∨ fieldOp w = 0xD#4 ∨ fieldOp w = 0xE#4 ∨ fieldOp w = 0xF#4 := by
  generalize fieldOp w = b
  revert b
  decide

end Sys2Proof
end

