-- ==== Sys2Proof/Laws/Cycle.lean ====
section
/-! SUPPORT. What a step can do, said once (spec/40_cycle.md R100 to R112). -/

namespace Sys2Proof.Machine

/-- Decoding a word answers an instruction or rejects that very word. -/
theorem decodeWord_cases (w : Word) : (∃ i, decodeWord w = .instr i) ∨ decodeWord w = .unknownOpcode w := by
  unfold decodeWord decodeGroup0 decodeGroup8 decodeGroupE decodeGroupF decodeNZero
  repeat' split
  all_goals first | exact .inl ⟨_, rfl⟩ | exact .inr rfl

/-- Every field after `leaveTick`: only the position and the host's list change. -/
@[simp] theorem State.leaveTick_halted (s : State) : s.leaveTick.halted = s.halted := rfl
@[simp] theorem State.leaveTick_paused (s : State) : s.leaveTick.paused = s.paused := rfl
@[simp] theorem State.leaveTick_waitReg (s : State) : s.leaveTick.waitReg = s.waitReg := rfl
@[simp] theorem State.leaveTick_mem (s : State) : s.leaveTick.mem = s.mem := rfl
@[simp] theorem State.leaveTick_cfg (s : State) : s.leaveTick.cfg = s.cfg := rfl
@[simp] theorem State.leaveTick_v (s : State) : s.leaveTick.v = s.v := rfl
@[simp] theorem State.leaveTick_i (s : State) : s.leaveTick.i = s.i := rfl
@[simp] theorem State.leaveTick_pc (s : State) : s.leaveTick.pc = s.pc := rfl
@[simp] theorem State.leaveTick_stack (s : State) : s.leaveTick.stack = s.stack := rfl
@[simp] theorem State.leaveTick_dt (s : State) : s.leaveTick.dt = s.dt := rfl
@[simp] theorem State.leaveTick_st (s : State) : s.leaveTick.st = s.st := rfl
@[simp] theorem State.leaveTick_display (s : State) : s.leaveTick.display = s.display := rfl
@[simp] theorem State.leaveTick_keys (s : State) : s.leaveTick.keys = s.keys := rfl
@[simp] theorem State.leaveTick_tone (s : State) : s.leaveTick.tone = s.tone := rfl
@[simp] theorem State.leaveTick_slot (s : State) : s.leaveTick.slot = 0 := rfl
@[simp] theorem State.leaveTick_draws (s : State) : s.leaveTick.draws = s.draws := rfl

/-! ### The end of a tick, field by field (R108 to R111) -/

@[simp] theorem State.endTick_halted (s : State) : s.endTick.halted = s.halted := by simp [State.endTick]
@[simp] theorem State.endTick_paused (s : State) : s.endTick.paused = s.paused := by simp [State.endTick]
@[simp] theorem State.endTick_waitReg (s : State) : s.endTick.waitReg = s.waitReg := by simp [State.endTick]
@[simp] theorem State.endTick_mem (s : State) : s.endTick.mem = s.mem := by simp [State.endTick]
@[simp] theorem State.endTick_cfg (s : State) : s.endTick.cfg = s.cfg := by simp [State.endTick]
@[simp] theorem State.endTick_v (s : State) : s.endTick.v = s.v := by simp [State.endTick]
@[simp] theorem State.endTick_i (s : State) : s.endTick.i = s.i := by simp [State.endTick]
@[simp] theorem State.endTick_pc (s : State) : s.endTick.pc = s.pc := by simp [State.endTick]
@[simp] theorem State.endTick_stack (s : State) : s.endTick.stack = s.stack := by simp [State.endTick]
@[simp] theorem State.endTick_display (s : State) : s.endTick.display = s.display := by simp [State.endTick]
@[simp] theorem State.endTick_keys (s : State) : s.endTick.keys = s.keys := by simp [State.endTick]
@[simp] theorem State.endTick_draws (s : State) : s.endTick.draws = s.draws := by simp [State.endTick]
@[simp] theorem State.endTick_slot (s : State) : s.endTick.slot = 0 := by simp [State.endTick]
@[simp] theorem State.endTick_dt (s : State) : s.endTick.dt = countDown s.dt := by simp [State.endTick]
@[simp] theorem State.endTick_st (s : State) : s.endTick.st = countDown s.st := by simp [State.endTick]
@[simp] theorem State.endTick_tone (s : State) : s.endTick.tone = decide (countDown s.st ≠ 0) := rfl
@[simp] theorem State.reg_endTick (s : State) (r : Reg) : s.endTick.reg r = s.reg r := by
  simp [State.reg]
@[simp] theorem State.memRead_endTick (s : State) (a : Nat) : s.endTick.memRead a = s.memRead a :=
  State.memRead_congr (by simp) (by simp) a
@[simp] theorem State.reg_leaveTick (s : State) (r : Reg) : s.leaveTick.reg r = s.reg r := rfl
@[simp] theorem State.memRead_leaveTick (s : State) (a : Nat) : s.leaveTick.memRead a = s.memRead a := rfl

/-- Closing a slot changes the position and the host's list alone. -/
theorem State.closeSlot_eq (s : State) : ∃ n l, s.closeSlot = (s.setSlot n).setHost l := by
  unfold State.closeSlot
  split
  · exact ⟨0, _, rfl⟩
  · exact ⟨s.slot + 1, s.host, rfl⟩

theorem State.closeSlot_running {s : State} (h : s.halted = none) : s.closeSlot = s.setSlot (s.slot + 1) := by
  simp [State.closeSlot, h]

theorem State.closeSlot_halted {s : State} {f : FaultRecord} (h : s.halted = some f) :
    s.closeSlot = s.leaveTick := by
  simp [State.closeSlot, h]

/-- The key events a step can deliver: the head of the host's list, between ticks (R240). -/
theorem State.keyEvent_cases {s t : State} (h : s.keyEvent = some t) :
    s.slot = 0 ∧ ((∃ k rest, s.host = .keyDown k :: rest ∧ t = (s.setHost rest).keyDown k) ∨
      (∃ k rest, s.host = .keyUp k :: rest ∧ t = (s.setHost rest).keyUp k)) := by
  unfold State.keyEvent at h
  split at h
  · next hslot =>
    refine ⟨hslot, ?_⟩
    split at h
    · next k rest hh => exact .inl ⟨k, rest, hh, (Option.some.inj h).symm⟩
    · next k rest hh => exact .inr ⟨k, rest, hh, (Option.some.inj h).symm⟩
    · cases h
  · cases h

/-- Whether a key event is due depends on the position and the host's list alone. -/
theorem State.noKeyDue_congr {s t : State} (hslot : t.slot = s.slot) (hhost : t.host = s.host)
    (h : s.NoKeyDue) : t.NoKeyDue := by
  unfold State.NoKeyDue State.keyEvent at *
  rw [hslot, hhost]
  split at h
  · next h0 =>
    rw [if_pos h0]
    split at h
    · cases h
    · cases h
    · rfl
  · next h0 => rw [if_neg h0]

/-- Inside a tick no key event is due (R240). -/
theorem State.noKeyDue_of_slot {s : State} (h : 0 < s.slot) : s.NoKeyDue := by
  unfold State.NoKeyDue State.keyEvent
  rw [if_neg (by omega)]

/-- One instruction, as the next state it answers. -/
theorem runInstruction_cases {s u : State} (h : runInstruction s = .next u) :
    (∃ i, decodeWord s.fetchWord = .instr i ∧ exec i s.advancePc = .next u) ∨
    (decodeWord s.fetchWord = .unknownOpcode s.fetchWord ∧
      u = s.advancePc.raiseFault .unknownOpcode s.fetchWord) := by
  rcases decodeWord_cases s.fetchWord with ⟨i, hi⟩ | hi
  · exact .inl ⟨i, hi, by simpa [runInstruction, hi] using h⟩
  · exact .inr ⟨hi, by simpa [runInstruction, hi] using h.symm⟩

/-- ALL THAT A STEP CAN DO: a key event between ticks; nothing, on a halted machine; a slot skipped while
paused; a slot that runs one instruction, or raises UnknownOpcode; or the end of a tick. -/
theorem step_cases {s t : State} (h : step s = .next t) :
    (s.keyEvent = some t) ∨
    (s.NoKeyDue ∧ s.halted.isSome = true ∧ t = s.leaveTick) ∨
    (s.NoKeyDue ∧ s.halted = none ∧ s.slot < s.cfg.ipt ∧ s.paused = true ∧ t = s.setSlot (s.slot + 1)) ∨
    (s.RunsSlot ∧ ∃ i u, decodeWord s.fetchWord = .instr i ∧ exec i s.advancePc = .next u ∧ t = u.closeSlot) ∨
    (s.RunsSlot ∧ decodeWord s.fetchWord = .unknownOpcode s.fetchWord ∧
      t = (s.advancePc.raiseFault .unknownOpcode s.fetchWord).closeSlot) ∨
    (s.NoKeyDue ∧ s.halted = none ∧ s.cfg.ipt ≤ s.slot ∧ t = s.endTick) := by
  simp only [step, cycle] at h
  split at h
  · next hk => exact .inl (by cases h; exact hk)
  · next hk =>
    split at h
    · next hh => cases h; exact .inr (.inl ⟨hk, hh, rfl⟩)
    · next hh =>
      have hh' : s.halted = none := by simpa using hh
      split at h
      · next hs =>
        simp only [runSlot] at h
        split at h
        · next hp => cases h; exact .inr (.inr (.inl ⟨hk, hh', hs, hp, rfl⟩))
        · next hp =>
          have hrun : s.RunsSlot := ⟨hk, hh', by simpa using hp, hs⟩
          split at h
          · next u hu =>
            cases h
            rcases runInstruction_cases hu with ⟨i, hi, he⟩ | ⟨hi, rfl⟩
            · exact .inr (.inr (.inr (.inl ⟨hrun, i, u, hi, he, rfl⟩)))
            · exact .inr (.inr (.inr (.inr (.inl ⟨hrun, hi, rfl⟩))))
          · cases h
          · cases h
      · next hs => cases h; exact .inr (.inr (.inr (.inr (.inr ⟨hk, hh', by omega, rfl⟩))))

end Sys2Proof.Machine
end

