-- ==== Sys2Proof/Laws/Exec.lean ====
section
/-! SUPPORT. What an instruction can do, said once over all 34: the parts that none of them writes, and
which of them writes the timers, the stack, memory, the wait and `halted`. -/

namespace Sys2Proof.Machine

/-- The wait and the halt after an instruction: both as before, or a wait begun (R204), or a fault raised
with the wait as before (R225). -/
def WaitAndHalt (s t : State) : Prop :=
  (t.paused = s.paused ∧ t.waitReg = s.waitReg ∧ t.halted = s.halted) ∨
  (t.paused = true ∧ t.waitReg.isSome = true ∧ t.halted = s.halted) ∨
  (t.paused = s.paused ∧ t.waitReg = s.waitReg ∧ t.halted.isSome = true)

/-- What every instruction keeps, and which instruction writes what. -/
structure ExecKeeps (i : Instr) (s t : State) : Prop where
  cfg : t.cfg = s.cfg
  slot : t.slot = s.slot
  host : t.host = s.host
  keys : t.keys = s.keys
  tone : t.tone = s.tone
  memWf : Memory.wf s.cfg s.mem = true → Memory.wf s.cfg t.mem = true
  displayWf : Display.wf s.cfg s.display = true → s.cfg.wf = true → Display.wf s.cfg t.display = true
  waitAndHalt : WaitAndHalt s t
  stackRoom : ∀ c, s.cfg.stackCapacity = some c → s.stack.length ≤ c → t.stack.length ≤ c
  dt : t.dt = s.dt ∨ ∃ x, i = .ldDtVx x ∧ t.dt = s.reg x
  st : t.st = s.st ∨ ∃ x, i = .ldStVx x ∧ t.st = s.reg x
  stack : t.stack = s.stack ∨ (∃ nnn, i = .call nnn) ∨ i = .ret
  mem : t.mem = s.mem ∨ ∃ x, i = .ldBVx x ∨ i = .ldMiVx x

/-- An instruction that changes registers, I, PC and the draws alone keeps the rest. -/
theorem execKeeps_of_registers {i : Instr} {s t : State} {w : Vector Byte 16} {a p : Addr} {n : Nat}
    (h : t = (((s.setV w).setI a).setPc p).setDraws n) : ExecKeeps i s t := by
  subst h
  exact ⟨rfl, rfl, rfl, rfl, rfl, id, fun h _ => h, .inl ⟨rfl, rfl, rfl⟩, fun _ _ h => h, .inl rfl, .inl rfl,
    .inl rfl, .inl rfl⟩

/-- Raising a fault keeps the rest. -/
theorem execKeeps_of_fault {i : Instr} {s : State} (k : FaultKind) (w : Word) :
    ExecKeeps i s (s.raiseFault k w) :=
  ⟨rfl, rfl, rfl, rfl, rfl, id, fun h _ => h, .inr (.inr ⟨rfl, rfl, rfl⟩), fun _ _ h => h, .inl rfl, .inl rfl,
    .inl rfl, .inl rfl⟩

/-- An instruction that stores keeps all but memory. -/
theorem execKeeps_of_store {i : Instr} {s : State} {m : Memory} (hi : ∃ x, i = .ldBVx x ∨ i = .ldMiVx x)
    (hm : Memory.wf s.cfg s.mem = true → Memory.wf s.cfg m = true) : ExecKeeps i s (s.setMem m) :=
  ⟨rfl, rfl, rfl, rfl, rfl, hm, fun h _ => h, .inl ⟨rfl, rfl, rfl⟩, fun _ _ h => h, .inl rfl, .inl rfl, .inl rfl,
    .inr hi⟩

/-- A skip keeps all but PC. -/
theorem execKeeps_of_skip {i : Instr} {s : State} (c : Bool) : ExecKeeps i s (s.skipIf c) := by
  rcases s.skipIf_cases c with ⟨_, h⟩ | ⟨_, h⟩
  · rw [h]
    exact execKeeps_of_registers (w := s.v) (a := s.i) (p := s.pc + 2) (n := s.draws) rfl
  · rw [h]
    exact execKeeps_of_registers (w := s.v) (a := s.i) (p := s.pc) (n := s.draws) rfl

/-- ALL THAT AN INSTRUCTION LEAVES ALONE, over all 34 of them. -/
theorem exec_keeps {i : Instr} {s t : State} (h : exec i s = .next t) : ExecKeeps i s t := by
  cases i with
  | ret =>
    simp only [exec, execRet] at h
    split at h <;> cases h
    · exact execKeeps_of_fault _ _
    · next a rest hst =>
      refine ⟨rfl, rfl, rfl, rfl, rfl, id, fun h _ => h, .inl ⟨rfl, rfl, rfl⟩, fun c _ hl => ?_, .inl rfl, .inl rfl,
        .inr (.inr rfl), .inl rfl⟩
      rw [hst, List.length_cons] at hl
      show rest.length ≤ c
      omega
  | call nnn =>
    simp only [exec, execCall] at h
    split at h <;> cases h
    · exact execKeeps_of_fault _ _
    · next hst =>
      refine ⟨rfl, rfl, rfl, rfl, rfl, id, fun h _ => h, .inl ⟨rfl, rfl, rfl⟩, fun c hc _ => ?_, .inl rfl, .inl rfl,
        .inr (.inl ⟨_, rfl⟩), .inl rfl⟩
      simp only [State.stackFull, hc, decide_eq_true_eq] at hst
      show s.stack.length + 1 ≤ c
      omega
  | drw x y n =>
    simp only [exec, execDrw] at h
    split at h <;> cases h
    exact ⟨rfl, rfl, rfl, rfl, rfl, id, fun hd hc => Display.wf_toggleAll hc _ _ hd, .inl ⟨rfl, rfl, rfl⟩,
      fun _ _ h => h, .inl rfl, .inl rfl, .inl rfl, .inl rfl⟩
  | cls =>
    cases h
    exact ⟨rfl, rfl, rfl, rfl, rfl, id, fun _ _ => by simp [Display.wf, State.clearDisplay], .inl ⟨rfl, rfl, rfl⟩,
      fun _ _ h => h, .inl rfl, .inl rfl, .inl rfl, .inl rfl⟩
  | ldMiVx x =>
    obtain ⟨m, hm, hwf⟩ := State.storeRegs_eq s x
    simp only [exec, execLdMiVx, hm] at h
    cases h
    exact execKeeps_of_store ⟨x, .inr rfl⟩ hwf
  | ldBVx x =>
    cases h
    refine execKeeps_of_store ⟨x, .inl rfl⟩ fun hm => ?_
    exact State.wf_memWrite (s := (s.memWrite _ _).memWrite _ _)
      (State.wf_memWrite (s := s.memWrite _ _) (State.wf_memWrite hm _ _) _ _) _ _
  | ldVxMi x =>
    obtain ⟨w, hw⟩ := State.loadRegs_eq s x
    simp only [exec, execLdVxMi, hw] at h
    cases h
    exact execKeeps_of_registers (w := w) (a := s.i) (p := s.pc) (n := s.draws) rfl
  | seImm x kk => cases h; exact execKeeps_of_skip _
  | sneImm x kk => cases h; exact execKeeps_of_skip _
  | seReg x y => cases h; exact execKeeps_of_skip _
  | sneReg x y => cases h; exact execKeeps_of_skip _
  | skp x => cases h; exact execKeeps_of_skip _
  | sknp x => cases h; exact execKeeps_of_skip _
  | ldDtVx x =>
    cases h
    exact ⟨rfl, rfl, rfl, rfl, rfl, id, fun h _ => h, .inl ⟨rfl, rfl, rfl⟩, fun _ _ h => h, .inr ⟨x, rfl, rfl⟩,
      .inl rfl, .inl rfl, .inl rfl⟩
  | ldStVx x =>
    cases h
    exact ⟨rfl, rfl, rfl, rfl, rfl, id, fun h _ => h, .inl ⟨rfl, rfl, rfl⟩, fun _ _ h => h, .inl rfl,
      .inr ⟨x, rfl, rfl⟩, .inl rfl, .inl rfl⟩
  | ldVxK x =>
    cases h
    exact ⟨rfl, rfl, rfl, rfl, rfl, id, fun h _ => h, .inr (.inl ⟨rfl, rfl, rfl⟩), fun _ _ h => h, .inl rfl, .inl rfl,
      .inl rfl, .inl rfl⟩
  | jp _ | ldImm _ _ | addImm _ _ | ldReg _ _ | orReg _ _ | andReg _ _ | xorReg _ _ | addReg _ _ | sub _ _
  | shr _ _ | subn _ _ | shl _ _ | ldI _ | jpV0 _ | rnd _ _ | ldVxDt _ | addIVx _ | ldFVx _ =>
    cases h
    exact ⟨rfl, rfl, rfl, rfl, rfl, id, fun h _ => h, .inl ⟨rfl, rfl, rfl⟩, fun _ _ h => h, .inl rfl, .inl rfl,
      .inl rfl, .inl rfl⟩

/-- On a configuration with a pixel every instruction answers a next state. -/
theorem exec_total (i : Instr) {s : State} (h : s.cfg.wf = true) : ∃ t, exec i s = .next t := by
  cases i with
  | ret => simp only [exec, execRet]; split <;> exact ⟨_, rfl⟩
  | call nnn => simp only [exec, execCall]; split <;> exact ⟨_, rfl⟩
  | drw x y n =>
    have hpix := decide_eq_true_iff.1 h
    exact ⟨_, by simp only [exec, execDrw, if_neg (show ¬ (s.cfg.displayW = 0 ∨ s.cfg.displayH = 0) by omega)]; rfl⟩
  | _ => exact ⟨_, rfl⟩

end Sys2Proof.Machine
end

