-- ==== Sys2Proof/Laws/PerInstr.lean ====
section
/-! SUPPORT. Laws made per instruction. EncodesItsRow: the word the encoder gives an instruction spells
that instruction's row of the opcode map (spec/30_encoding.md R82, R88). -/

namespace Sys2Proof.Laws.EncodesItsRow

/-- The encoded word matches the instruction's own row under its mask. -/
def Statement (i : Instr) : Prop := encode i &&& (opcodeRow i).mask = (opcodeRow i).pattern

theorem cls : Statement (.cls) := by show encode _ &&& _ = _; decide
theorem ret : Statement (.ret) := by show encode _ &&& _ = _; decide
theorem jp (nnn : Addr) : Statement (.jp nnn) := mask_packNNN _ _
theorem call (nnn : Addr) : Statement (.call nnn) := mask_packNNN _ _
theorem seImm (x : Reg) (kk : Byte) : Statement (.seImm x kk) := by
  show packXKK _ x kk &&& 0xF000#16 = _
  rw [mask_op, fieldOp_packXKK]; rfl
theorem sneImm (x : Reg) (kk : Byte) : Statement (.sneImm x kk) := by
  show packXKK _ x kk &&& 0xF000#16 = _
  rw [mask_op, fieldOp_packXKK]; rfl
theorem seReg (x : Reg) (y : Reg) : Statement (.seReg x y) := mask_packXYN _ _ _ _
theorem sneReg (x : Reg) (y : Reg) : Statement (.sneReg x y) := mask_packXYN _ _ _ _
theorem ldImm (x : Reg) (kk : Byte) : Statement (.ldImm x kk) := by
  show packXKK _ x kk &&& 0xF000#16 = _
  rw [mask_op, fieldOp_packXKK]; rfl
theorem addImm (x : Reg) (kk : Byte) : Statement (.addImm x kk) := by
  show packXKK _ x kk &&& 0xF000#16 = _
  rw [mask_op, fieldOp_packXKK]; rfl
theorem ldReg (x : Reg) (y : Reg) : Statement (.ldReg x y) := mask_packXYN _ _ _ _
theorem orReg (x : Reg) (y : Reg) : Statement (.orReg x y) := mask_packXYN _ _ _ _
theorem andReg (x : Reg) (y : Reg) : Statement (.andReg x y) := mask_packXYN _ _ _ _
theorem xorReg (x : Reg) (y : Reg) : Statement (.xorReg x y) := mask_packXYN _ _ _ _
theorem addReg (x : Reg) (y : Reg) : Statement (.addReg x y) := mask_packXYN _ _ _ _
theorem sub (x : Reg) (y : Reg) : Statement (.sub x y) := mask_packXYN _ _ _ _
theorem shr (x : Reg) (y : Reg) : Statement (.shr x y) := mask_packXYN _ _ _ _
theorem subn (x : Reg) (y : Reg) : Statement (.subn x y) := mask_packXYN _ _ _ _
theorem shl (x : Reg) (y : Reg) : Statement (.shl x y) := mask_packXYN _ _ _ _
theorem ldI (nnn : Addr) : Statement (.ldI nnn) := mask_packNNN _ _
theorem jpV0 (nnn : Addr) : Statement (.jpV0 nnn) := mask_packNNN _ _
theorem rnd (x : Reg) (kk : Byte) : Statement (.rnd x kk) := by
  show packXKK _ x kk &&& 0xF000#16 = _
  rw [mask_op, fieldOp_packXKK]; rfl
theorem drw (x : Reg) (y : Reg) (n : Nat) : Statement (.drw x y n) := by
  show packXYN _ x y _ &&& 0xF000#16 = _
  rw [mask_op, fieldOp_packXYN]; rfl
theorem skp (x : Reg) : Statement (.skp x) := mask_packXKK _ _ _
theorem sknp (x : Reg) : Statement (.sknp x) := mask_packXKK _ _ _
theorem ldVxDt (x : Reg) : Statement (.ldVxDt x) := mask_packXKK _ _ _
theorem ldDtVx (x : Reg) : Statement (.ldDtVx x) := mask_packXKK _ _ _
theorem ldStVx (x : Reg) : Statement (.ldStVx x) := mask_packXKK _ _ _
theorem ldVxK (x : Reg) : Statement (.ldVxK x) := mask_packXKK _ _ _
theorem addIVx (x : Reg) : Statement (.addIVx x) := mask_packXKK _ _ _
theorem ldFVx (x : Reg) : Statement (.ldFVx x) := mask_packXKK _ _ _
theorem ldBVx (x : Reg) : Statement (.ldBVx x) := mask_packXKK _ _ _
theorem ldMiVx (x : Reg) : Statement (.ldMiVx x) := mask_packXKK _ _ _
theorem ldVxMi (x : Reg) : Statement (.ldVxMi x) := mask_packXKK _ _ _

end Sys2Proof.Laws.EncodesItsRow
end

