-- ==== Sys2Proof/Laws/Run.lean ====
section
/-! SUPPORT. The laws of a run as the host makes it (spec/60_exceptions.md R240, R245): what one action can do,
where a run starts, and that its two ends are what R245 says of them. -/

namespace Sys2Proof.Machine

/-- ALL THAT ONE ACTION OF THE HOST CAN DO: the key event that is due, which is what a step does there too, or
a tick. -/
theorem hostAct_cases (s : State) :
    (∃ t, s.keyEvent = some t ∧ hostAct s = .next t ∧ step s = .next t) ∨ (s.NoKeyDue ∧ hostAct s = tick s) := by
  unfold hostAct step cycle State.NoKeyDue
  cases hk : s.keyEvent with
  | some t => exact .inl ⟨t, rfl, rfl, rfl⟩
  | none => exact .inr ⟨rfl, rfl⟩

@[simp] theorem runHost_zero (s : State) : runHost 0 s = .next s := rfl

theorem runHost_succ {s t : State} (n : Nat) (h : hostAct s = .next t) : runHost (n + 1) s = runHost n t := by
  simp [runHost, h]

/-- The actions of a run, cut in two. -/
theorem runHost_add {s t : State} (n m : Nat) (h : runHost n s = .next t) : runHost (n + m) s = runHost m t := by
  induction n generalizing s with
  | zero => cases h; rw [Nat.zero_add]
  | succ n ih =>
    cases ha : hostAct s with
    | next u =>
      rw [runHost_succ n ha] at h
      rw [Nat.succ_add, runHost_succ _ ha]
      exact ih h
    | fault r => simp [runHost, ha] at h
    | refused r => simp [runHost, ha] at h

/-- A boot with an image that fits: the reset state with other memory and the schedule, the memory in canonical
form (R262). -/
theorem boot_eq (c : Config) {image : List Byte} (h : image.length ≤ 3584) (schedule : List HostAction) :
    ∃ m, boot c image schedule = .next (((State.powerOn c).setHost schedule).setMem m) ∧ Memory.wf c m = true := by
  obtain ⟨m, hm, hwf⟩ := State.writeBytes_eq image 0x200 ((State.powerOn c).setHost schedule)
  exact ⟨m, by rw [boot, load, if_pos h, hm], hwf (Memory.wf_powerOn c)⟩

/-- A boot with an image that does not fit is refused (R262). -/
theorem boot_refused (c : Config) {image : List Byte} (h : 3584 < image.length) (schedule : List HostAction) :
    boot c image schedule = .refused (.imageTooLong image.length) := by
  rw [boot, load, if_neg (by omega)]

/-- After no ticks the end is the boot itself (R245). -/
theorem endsAfterTicks_none {c : Config} {image : List Byte} {s : State} :
    EndsAfterTicks c image [] 0 s ↔ boot c image [] = .next s := by
  unfold EndsAfterTicks runSchedule
  cases boot c image [] <;> simp

/-- "A state with `halted = some f` is never a good end" (R245): the second end is a good one by its form. -/
theorem EndsAtSelfJump.goodEnd {c : Config} {image : List Byte} {schedule : List HostAction} {s : State}
    (h : EndsAtSelfJump c image schedule s) : s.GoodEnd := by
  obtain ⟨_, _, _, _, ⟨hhalt, _⟩, _⟩ := h
  exact hhalt

/-- "A paused state is an end only under definition 1" (R245). -/
theorem EndsAtSelfJump.not_paused {c : Config} {image : List Byte} {schedule : List HostAction} {s : State}
    (h : EndsAtSelfJump c image schedule s) : s.paused = false := by
  obtain ⟨_, _, _, _, ⟨_, hrun, _⟩, _⟩ := h
  exact hrun

/-- On a configuration with a pixel the next instruction answers a next state, and keeps the configuration. -/
theorem runInstruction_total {s : State} (h : s.cfg.wf = true) :
    ∃ t, runInstruction s = .next t ∧ t.cfg = s.cfg := by
  rcases decodeWord_cases s.fetchWord with ⟨i, hi⟩ | hi
  · obtain ⟨t, ht⟩ := exec_total i (s := s.advancePc) h
    exact ⟨t, by simp [runInstruction, hi, ht], (exec_keeps ht).cfg⟩
  · exact ⟨s.advancePc.raiseFault .unknownOpcode s.fetchWord, by simp [runInstruction, hi], rfl⟩

end Sys2Proof.Machine
end

