-- ==== Sys2Proof/Tests/Slice0.lean ====
section
/-! SUPPORT. The model's own tests. Expected results come from the encodings of spec/30_encoding.md and from
the vectors of spec/95_test_vectors.md, each test naming its row; a witness shows a concrete state and
operands that meet the hypotheses of the obligation it is named after. -/

namespace Sys2Proof.Tests

open Sys2Proof Sys2Proof.Machine

/-! ### Helpers -/

/-- The next state of an answer, if it is one. -/
def nextOf : Result → Option State
  | .next t => some t
  | .fault _ => none
  | .refused _ => none

/-- The state after one step of the word `w` placed at PC. -/
def oneStep (s : State) (w : Nat) : Option State := nextOf (step (s.withFetchWord 16 w))

/-- The reset state with a few registers set. -/
def withRegs (l : List (Reg × Byte)) : State := l.foldl (fun s p => s.setReg p.1 p.2) State.reset

/-- A configuration with a finite stack of two entries (vector of R223). -/
def twoDeep : Config := { Config.reference with stackCapacity := some 2 }

/-- A configuration without a pixel, which R8 excludes. -/
def noPixels : Config := { Config.reference with displayW := 0 }

/-! ### Well-formed instructions: an ill-formed term for the one check, and the bounds of it -/

theorem test_wf_refuses_sixteen_rows : (Instr.drw 1 2 16).wf = false := by decide
theorem test_wf_accepts_fifteen_rows : (Instr.drw 1 2 15).wf = true := by decide
theorem test_wf_accepts_no_rows : (Instr.drw 15 15 0).wf = true := by decide

/-! ### Decoding: a word of every constructor, written out from R71 and R82 -/

theorem test_decode_group_0 :
    decodeWord 0b0000_0000_1110_0000#16 = .instr .cls ∧ decodeWord 0b0000_0000_1110_1110#16 = .instr .ret := by
  decide

theorem test_decode_jumps :
    decodeWord 0b0001_0010_0011_0100#16 = .instr (.jp 0x234) ∧
    decodeWord 0b0010_1010_1011_1100#16 = .instr (.call 0xABC) ∧
    decodeWord 0b1011_1111_1111_1111#16 = .instr (.jpV0 0xFFF) := by decide

theorem test_decode_skips :
    decodeWord 0b0011_0011_0100_0010#16 = .instr (.seImm 3 0x42) ∧
    decodeWord 0b0100_0011_0100_0010#16 = .instr (.sneImm 3 0x42) ∧
    decodeWord 0b0101_0001_0010_0000#16 = .instr (.seReg 1 2) ∧
    decodeWord 0b1001_1010_1011_0000#16 = .instr (.sneReg 10 11) := by decide

theorem test_decode_immediates :
    decodeWord 0b0110_1010_1011_0111#16 = .instr (.ldImm 10 0xB7) ∧
    decodeWord 0b0111_0001_1111_1111#16 = .instr (.addImm 1 0xFF) ∧
    decodeWord 0b1100_0001_0000_1111#16 = .instr (.rnd 1 0x0F) := by decide

theorem test_decode_group_8 :
    decodeWord 0b1000_0001_0010_0000#16 = .instr (.ldReg 1 2) ∧
    decodeWord 0b1000_0001_0010_0001#16 = .instr (.orReg 1 2) ∧
    decodeWord 0b1000_0001_0010_0010#16 = .instr (.andReg 1 2) ∧
    decodeWord 0b1000_0001_0010_0011#16 = .instr (.xorReg 1 2) ∧
    decodeWord 0b1000_0001_0010_0100#16 = .instr (.addReg 1 2) ∧
    decodeWord 0b1000_0001_0010_0101#16 = .instr (.sub 1 2) ∧
    decodeWord 0b1000_0001_0010_0110#16 = .instr (.shr 1 2) ∧
    decodeWord 0b1000_0001_0010_0111#16 = .instr (.subn 1 2) ∧
    decodeWord 0b1000_1111_1110_1110#16 = .instr (.shl 15 14) := by decide

theorem test_decode_index_and_draw :
    decodeWord 0b1010_0001_0010_0011#16 = .instr (.ldI 0x123) ∧
    decodeWord 0b1101_0001_0010_0110#16 = .instr (.drw 1 2 6) := by decide

theorem test_decode_group_E :
    decodeWord 0b1110_0101_1001_1110#16 = .instr (.skp 5) ∧
    decodeWord 0b1110_0101_1010_0001#16 = .instr (.sknp 5) := by decide

theorem test_decode_group_F :
    decodeWord 0b1111_0101_0000_0111#16 = .instr (.ldVxDt 5) ∧
    decodeWord 0b1111_0000_0000_1010#16 = .instr (.ldVxK 0) ∧
    decodeWord 0b1111_0101_0001_0101#16 = .instr (.ldDtVx 5) ∧
    decodeWord 0b1111_0101_0001_1000#16 = .instr (.ldStVx 5) ∧
    decodeWord 0b1111_0000_0001_1110#16 = .instr (.addIVx 0) ∧
    decodeWord 0b1111_1010_0010_1001#16 = .instr (.ldFVx 10) ∧
    decodeWord 0b1111_0001_0011_0011#16 = .instr (.ldBVx 1) ∧
    decodeWord 0b1111_0010_0101_0101#16 = .instr (.ldMiVx 2) ∧
    decodeWord 0b1111_1111_0110_0101#16 = .instr (.ldVxMi 15) := by decide

/-- The Unknown rows of the decode vectors. -/
theorem test_decode_unknown_group_0 :
    decodeWord 0x0000#16 = .unknownOpcode 0x0000#16 ∧ decodeWord 0x0FFF#16 = .unknownOpcode 0x0FFF#16 ∧
    decodeWord 0x01E0#16 = .unknownOpcode 0x01E0#16 ∧ decodeWord 0x00E1#16 = .unknownOpcode 0x00E1#16 := by decide

theorem test_decode_unknown_others :
    decodeWord 0x5121#16 = .unknownOpcode 0x5121#16 ∧ decodeWord 0x8008#16 = .unknownOpcode 0x8008#16 ∧
    decodeWord 0x800F#16 = .unknownOpcode 0x800F#16 ∧ decodeWord 0xE09F#16 = .unknownOpcode 0xE09F#16 ∧
    decodeWord 0xF0FF#16 = .unknownOpcode 0xF0FF#16 := by decide

/-- An instruction is big-endian (R54). -/
theorem test_decode_bytes_big_endian :
    decodeBytes [0x6A#8, 0xB7#8, 0x00#8] = (.instr (.ldImm 10 0xB7), [0x00#8]) := by decide

/-! ### One step of each instruction (spec/95_test_vectors.md, part 2) -/

theorem test_se_imm : (oneStep (withRegs [(3, 0x42)]) 0x3342).map State.pc = some 0x204 := by decide
theorem test_se_imm_wraps : (oneStep (State.reset.setPc 0xFFC) 0x3000).map State.pc = some 0x000 := by decide
theorem test_sne_imm : (oneStep (withRegs [(3, 0x41)]) 0x4342).map State.pc = some 0x204 := by decide
theorem test_se_reg : (oneStep (withRegs [(1, 7), (2, 7)]) 0x5120).map State.pc = some 0x204 := by decide
theorem test_sne_reg : (oneStep (withRegs [(1, 7), (2, 8)]) 0x9120).map State.pc = some 0x204 := by decide
theorem test_jp : (oneStep State.reset 0x1300).map (fun t => (t.pc, t.stack)) = some (0x300, []) := by decide
theorem test_jp_v0_wraps : (oneStep (withRegs [(0, 0xFF)]) 0xBFFF).map State.pc = some 0x0FE := by decide
theorem test_jp_v0_odd :
    (oneStep (withRegs [(0, 0x02)]) 0xBFFF).map (fun t => (t.pc, t.halted)) = some (0x001, none) := by decide
theorem test_call_pushes_wrapped :
    (oneStep (State.reset.setPc 0xFFE) 0x2300).map (fun t => (t.pc, t.stack)) = some (0x300, [0x000]) := by decide
theorem test_call_overflow :
    (oneStep ((State.powerOn twoDeep).setStack [0x302, 0x202]) 0x2400).map (fun t => (t.halted, t.pc, t.stack)) =
      some (some ⟨.stackOverflow, 0x2400, 0x200⟩, 0x202, [0x302, 0x202]) := by decide
theorem test_ret :
    (oneStep ((State.reset.setPc 0x300).setStack [0x300, 0x20A]) 0x00EE).map (fun t => (t.pc, t.stack)) =
      some (0x300, [0x20A]) := by decide
theorem test_ret_empty :
    (oneStep State.reset 0x00EE).map (fun t => (t.halted, t.pc)) =
      some (some ⟨.emptyStackPop, 0x00EE, 0x200⟩, 0x202) := by decide

theorem test_ld_imm : (oneStep State.reset 0x6AB7).map (fun t => t.reg 10) = some 0xB7 := by decide
theorem test_add_imm_no_flag :
    (oneStep (withRegs [(1, 1), (15, 5)]) 0x71FF).map (fun t => (t.reg 1, t.reg 15)) = some (0x00, 5) := by decide
theorem test_add_imm_vf : (oneStep (withRegs [(15, 1)]) 0x7FFF).map (fun t => t.reg 15) = some 0x00 := by decide
theorem test_ld_reg : (oneStep (withRegs [(2, 0x5A)]) 0x8120).map (fun t => t.reg 1) = some 0x5A := by decide
theorem test_or :
    (oneStep (withRegs [(1, 0x0C), (2, 0x0A), (15, 9)]) 0x8121).map (fun t => (t.reg 1, t.reg 15)) =
      some (0x0E, 9) := by decide
theorem test_and : (oneStep (withRegs [(1, 0x0C), (2, 0x0A)]) 0x8122).map (fun t => t.reg 1) = some 0x08 := by decide
theorem test_xor : (oneStep (withRegs [(1, 0x0C), (2, 0x0A)]) 0x8123).map (fun t => t.reg 1) = some 0x06 := by decide
theorem test_add_reg_carry :
    (oneStep (withRegs [(1, 0xFF), (2, 0x01)]) 0x8124).map (fun t => (t.reg 1, t.reg 15)) = some (0x00, 1) := by decide
theorem test_add_reg_flag_wins :
    (oneStep (withRegs [(15, 0x10), (0, 0x01)]) 0x8F04).map (fun t => t.reg 15) = some 0 := by decide
theorem test_sub_strict :
    (oneStep (withRegs [(1, 5), (2, 5)]) 0x8125).map (fun t => (t.reg 1, t.reg 15)) = some (0x00, 0) := by decide
theorem test_sub_reads_vf_first :
    (oneStep (withRegs [(0, 0x10), (15, 0x01)]) 0x80F5).map (fun t => (t.reg 0, t.reg 15)) = some (0x0F, 1) := by
  decide
theorem test_shr :
    (oneStep (withRegs [(1, 0x81), (2, 0x22)]) 0x8126).map (fun t => (t.reg 1, t.reg 15)) = some (0x40, 1) := by decide
theorem test_shr_vf : (oneStep (withRegs [(15, 0x02)]) 0x8F06).map (fun t => t.reg 15) = some 0 := by decide
theorem test_subn :
    (oneStep (withRegs [(1, 3), (2, 5)]) 0x8127).map (fun t => (t.reg 1, t.reg 15)) = some (0x02, 1) := by decide
theorem test_shl_bit_7_clear :
    (oneStep (withRegs [(1, 0x40), (15, 7)]) 0x812E).map (fun t => (t.reg 1, t.reg 15)) = some (0x80, 0) := by decide
theorem test_shl_bit_7_set :
    (oneStep (withRegs [(1, 0x81)]) 0x812E).map (fun t => (t.reg 1, t.reg 15)) = some (0x02, Config.shlVfSet) := by
  rfl
theorem test_rnd_mask_keeps_draw :
    (oneStep State.reset 0xC10F).map (fun t => (t.reg 1, t.draws)) = some (Config.drawByte 0 &&& 0x0F, 1) := by rfl

theorem test_ld_i : (oneStep State.reset 0xA123).map State.i = some 0x123 := by decide
theorem test_add_i_vx_wraps :
    (oneStep ((withRegs [(0, 0x10), (15, 7)]).setI 0xFF8) 0xF01E).map (fun t => (t.i, t.reg 15)) =
      some (0x008, 7) := by decide
theorem test_ld_f_no_mask : (oneStep (withRegs [(0, 0x1A)]) 0xF029).map State.i = some 0x082 := by decide
theorem test_ld_f_top : (oneStep (withRegs [(0, 0xFF)]) 0xF029).map State.i = some 0x4FB := by decide
theorem test_ld_b :
    (oneStep ((withRegs [(0, 0xFE)]).setI 0x300) 0xF033).map
      (fun t => (t.memRead 0x300, t.memRead 0x301, t.memRead 0x302)) = some (2, 5, 4) := by decide
theorem test_ld_b_wraps :
    (oneStep ((withRegs [(0, 123)]).setI 0xFFE) 0xF033).map
      (fun t => (t.memRead 0xFFE, t.memRead 0xFFF, t.memRead 0x000, t.i)) = some (1, 2, 3, 0xFFE) := by decide
theorem test_ld_mi_wraps :
    (oneStep ((withRegs [(0, 1), (1, 2), (2, 3)]).setI 0xFFE) 0xF255).map
      (fun t => (t.memRead 0xFFE, t.memRead 0xFFF, t.memRead 0x000, t.i)) = some (1, 2, 3, 0xFFE) := by decide
theorem test_ld_vx_mi_font :
    (oneStep State.reset 0xF165).map (fun t => (t.reg 0, t.reg 1, t.reg 2, t.i)) = some (0xF0, 0x90, 0, 0) := by decide
theorem test_ld_vx_mi_all :
    (oneStep State.reset 0xFF65).map State.v =
      some #v[0xF0, 0x90, 0x90, 0x90, 0xF0, 0x20, 0x60, 0x20, 0x20, 0x70, 0xF0, 0x10, 0xF0, 0x80, 0xF0, 0xF0] := by
  decide

theorem test_ld_vx_dt : (oneStep (State.reset.setDt 0x2A) 0xF507).map (fun t => t.reg 5) = some 0x2A := by decide
theorem test_ld_dt_vx :
    (oneStep (withRegs [(5, 0x3C)]) 0xF515).map (fun t => (t.dt, t.st)) = some (0x3C, 0) := by decide
theorem test_ld_st_vx :
    (oneStep (withRegs [(5, 0x3C)]) 0xF518).map (fun t => (t.st, t.tone)) = some (0x3C, false) := by decide

/-- V-D1: wraps in x. -/
theorem test_drw_wraps_x :
    (oneStep (((withRegs [(0, 60)]).setI 0x300).memWrite 0x300 0xFF) 0xD011).map (fun t => (t.display, t.reg 15)) =
      some ([(0, 0), (0, 1), (0, 2), (0, 3), (0, 60), (0, 61), (0, 62), (0, 63)], 0) := by decide
/-- V-D4: x taken from VF before the write. -/
theorem test_drw_x_is_vf :
    (oneStep (withRegs [(15, 2), (1, 3)]) 0xDF11).map (fun t => (t.display, t.reg 15)) =
      some ([(3, 2), (3, 3), (3, 4), (3, 5)], 0) := by decide
/-- V-D5, the second draw: the pixels go off and VF reports it. -/
theorem test_drw_collision :
    (oneStep (State.reset.setDisplay [(0, 0), (0, 1), (0, 2), (0, 3)]) 0xD011).map (fun t => (t.display, t.reg 15)) =
      some ([], 1) := by decide
/-- V-D3: no rows. -/
theorem test_drw_no_rows :
    (oneStep (withRegs [(15, 5)]) 0xD010).map (fun t => (t.display, t.reg 15)) = some ([], 0) := by decide
/-- V-D7. -/
theorem test_cls :
    (oneStep ((withRegs [(15, 5)]).setDisplay [(3, 2)]) 0x00E0).map (fun t => (t.display, t.reg 15)) =
      some ([], 5) := by decide

/-- V-K1. -/
theorem test_skp_pressed : (oneStep ((withRegs [(2, 5)]).keyDown 5) 0xE29E).map State.pc = some 0x204 := by decide
/-- V-K4: code 0x15 is never pressed. -/
theorem test_skp_code_too_large :
    (oneStep ((withRegs [(2, 0x15)]).keyDown 5) 0xE29E).map State.pc = some 0x202 := by decide
/-- V-K3. -/
theorem test_sknp_pressed : (oneStep ((withRegs [(2, 5)]).keyDown 5) 0xE2A1).map State.pc = some 0x202 := by decide
/-- V-K5. -/
theorem test_sknp_code_too_large : (oneStep (withRegs [(2, 0x15)]) 0xE2A1).map State.pc = some 0x204 := by decide
/-- V-K6: the held key does not count. -/
theorem test_ld_vx_k :
    (oneStep (State.reset.keyDown 4) 0xF20A).map (fun t => (t.paused, t.waitReg, t.reg 2)) =
      some (true, some 2, 0) := by decide

/-! ### Steps that run no instruction -/

/-- V-K7: the first key-down completes the wait. -/
theorem test_key_down_completes :
    (nextOf (step ((State.reset.setWait (some 2)).setHost [.keyDown 9]))).map
      (fun t => (t.paused, t.reg 2, t.isPressed 9, t.host)) = some (false, 9, true, []) := by decide
/-- V-K7: the second only sets the key. -/
theorem test_key_down_later :
    (nextOf (step (State.reset.setHost [.keyDown 3]))).map (fun t => (t.reg 2, t.isPressed 3)) =
      some (0, true) := by decide
theorem test_key_up :
    (nextOf (step ((State.reset.keyDown 3).setHost [.keyUp 3]))).map (fun t => t.isPressed 3) = some false := by decide
/-- Fault vector: word 0x0000 at 0x200. -/
theorem test_unknown_word :
    (nextOf (step State.reset)).map (fun t => (t.halted, t.pc)) =
      some (some ⟨.unknownOpcode, 0x0000, 0x200⟩, 0x202) := by decide
/-- V-K8: a slot while paused runs nothing. -/
theorem test_paused_slot :
    (nextOf (step ((State.reset.setWait (some 1)).setSlot 2))).map (fun t => (t.pc, t.slot)) = some (0x200, 3) := by
  decide
/-- Timer vector: ST 2 counts to 1 and the tone is on. -/
theorem test_tick_end_tone_on :
    (nextOf (step ((State.reset.setSt 2).setSlot 10))).map (fun t => (t.st, t.tone, t.slot)) = some (1, true, 0) := by
  decide
/-- Timer vector: ST 1 counts to 0 and the tone goes off; DT stops at 0. -/
theorem test_tick_end_tone_off :
    (nextOf (step (((State.reset.setSt 1).setTone true).setSlot 10))).map (fun t => (t.st, t.tone, t.dt)) =
      some (0, false, 0) := by decide

/-- A machine of one slot a tick, to run whole ticks of one instruction. -/
def oneSlot : Config := { Config.reference with ipt := 1 }

/-- R245, end 1: key 7 goes down, then one tick of the program `1200`: PC stays, the key is pressed, the schedule
is used up. -/
theorem test_run_schedule :
    (nextOf (runSchedule oneSlot [0x12, 0x00] [.keyDown 7, .tick])).map
      (fun t => (t.pc, t.isPressed 7, t.halted, t.host, t.slot)) = some (0x200, true, none, [], 0) := by decide

/-- P5: the tick of a fault leaves the fault's record, and a later tick changes nothing. -/
theorem test_run_schedule_after_fault :
    (nextOf (runSchedule oneSlot [0x00, 0xEE] [.tick, .tick])).map (fun t => (t.halted, t.pc)) =
      some (some ⟨.emptyStackPop, 0x00EE, 0x200⟩, 0x202) := by decide

/-- The load places the image at 0x200 (R262). -/
theorem test_load : (nextOf (load [0x12, 0x08] State.reset)).map (fun t => (t.memRead 0x200, t.memRead 0x201)) =
    some (0x12, 0x08) := by decide

/-- The table's word of LD_IMM with x = A and kk = B7. -/
theorem test_table_word : decodeTableWord 16 0x6AB7 = some (.ldImm 10 0xB7) := by decide

/-- R261: the font at reset, and zero above it. -/
theorem test_reset_memory :
    State.reset.memRead 0 = 0xF0 ∧ State.reset.memRead 79 = 0x80 ∧ State.reset.memRead 80 = 0 ∧
    State.reset.memRead 0xFFF = 0 := by decide

/-! ### Witnesses: states and operands that meet the hypotheses of the obligations -/

/-- A state that waits for a key for V2. -/
def waiting : State := State.reset.setWait (some 2)

/-- A halted state. -/
def halted : State := State.reset.setHalted (some ⟨.unknownOpcode, 0x0000, 0x200⟩)

/-- A state with a CALL, a Fx15 or another word at PC. -/
def holding (w : Nat) : State := State.reset.placeWord (tableWord 16 w)

/-- A state with a one-row sprite of one pixel at 0x300 and I there. -/
def oneDot : State := (State.reset.setI 0x300).memWrite 0x300 0x80

theorem witness_decode_of_encode : (Instr.drw 15 15 15).wf = true ∧ (Instr.shl 15 15).wf = true := by decide

theorem witness_encode_of_decode : decodeWord 0x8FFE#16 = .instr (.shl 15 15) := by decide

theorem witness_opcode_map_disjoint :
    opcodeRow (.shl 0 0) ∈ opcodeMap ∧ (opcodeRow (.shl 0 0)).spells 0x8FFE#16 = true := by decide

theorem witness_runs_slot : State.reset.RunsSlot := ⟨rfl, rfl, rfl, by decide⟩

theorem witness_step_runs_on :
    (holding 0x1300).RunsSlot ∧
    decodeWord (wordOfBytes ((holding 0x1300).memRead 0x200) ((holding 0x1300).memRead 0x201)) =
      .instr (.jp 0x300) ∧
    exec (.jp 0x300) ((holding 0x1300).setPc 0x202) = .next ((holding 0x1300).setPc 0x300) ∧
    ((holding 0x1300).setPc 0x300).halted = none := ⟨⟨rfl, rfl, rfl, by decide⟩, by decide, rfl, rfl⟩

theorem witness_step_halts :
    (holding 0x00EE).RunsSlot ∧
    decodeWord (wordOfBytes ((holding 0x00EE).memRead 0x200) ((holding 0x00EE).memRead 0x201)) = .instr .ret ∧
    exec .ret ((holding 0x00EE).setPc 0x202) =
      .next (((holding 0x00EE).setPc 0x202).setHalted (some ⟨.emptyStackPop, 0x00EE, 0x200⟩)) :=
  ⟨⟨rfl, rfl, rfl, by decide⟩, by decide, rfl⟩

theorem witness_step_faults :
    ((holding 0xD011).setCfg noPixels).RunsSlot ∧
    decodeWord (wordOfBytes (((holding 0xD011).setCfg noPixels).memRead 0x200)
      (((holding 0xD011).setCfg noPixels).memRead 0x201)) = .instr (.drw 0 1 1) ∧
    exec (.drw 0 1 1) (((holding 0xD011).setCfg noPixels).setPc 0x202) = .fault .noDisplay :=
  ⟨⟨rfl, rfl, rfl, by decide⟩, by decide, rfl⟩

theorem witness_leaving_a_tick :
    (State.reset.setHost [.tick, .keyUp 1]).host = .tick :: [.keyUp 1] ∧
    ∀ rest, (State.reset.setHost [.keyUp 1]).host ≠ .tick :: rest := ⟨rfl, fun _ h => by cases h⟩

theorem witness_unknown_word :
    State.reset.RunsSlot ∧ decodeWord State.reset.fetchWord = .unknownOpcode State.reset.fetchWord :=
  ⟨⟨rfl, rfl, rfl, by decide⟩, by decide⟩

theorem witness_halted :
    halted.NoKeyDue ∧ halted.halted = some ⟨.unknownOpcode, 0x0000, 0x200⟩ ∧ step halted = .next halted.leaveTick :=
  ⟨rfl, rfl, rfl⟩

theorem witness_paused_slot :
    waiting.NoKeyDue ∧ waiting.halted = none ∧ waiting.paused = true ∧ waiting.slot < waiting.cfg.ipt :=
  ⟨rfl, rfl, rfl, by decide⟩

theorem witness_tick_end :
    ((State.reset.setSt 2).setSlot 10).NoKeyDue ∧ ((State.reset.setSt 2).setSlot 10).halted = none ∧
    ((State.reset.setSt 2).setSlot 10).cfg.ipt ≤ ((State.reset.setSt 2).setSlot 10).slot := ⟨rfl, rfl, by decide⟩

theorem witness_key_down :
    (waiting.setHost [.keyDown 15]).slot = 0 ∧ (waiting.setHost [.keyDown 15]).host = .keyDown 15 :: [] ∧
    (waiting.setHost [.keyDown 15]).paused = true ∧ (waiting.setHost [.keyDown 15]).waitReg = some 2 :=
  ⟨rfl, rfl, rfl, rfl⟩

theorem witness_key_down_not_paused :
    (State.reset.setHost [.keyDown 0]).slot = 0 ∧ (State.reset.setHost [.keyDown 0]).host = .keyDown 0 :: [] ∧
    (State.reset.setHost [.keyDown 0]).paused = false ∧ (1 : Key) ≠ 0 := ⟨rfl, rfl, rfl, by decide⟩

theorem witness_key_up :
    (State.reset.setHost [.keyUp 15]).slot = 0 ∧ (State.reset.setHost [.keyUp 15]).host = .keyUp 15 :: [] ∧
    (0 : Key) ≠ 15 := ⟨rfl, rfl, by decide⟩

theorem witness_placed_word : decodeTableWord 16 0xD126 = some (.drw 1 2 6) := by decide

theorem witness_group_fields :
    fieldOp 0x1FFF#16 = 0x1 ∧ fieldOp 0x6AB7#16 = 0x6 ∧ fieldOp 0x7F01#16 = 0x7 ∧
    (fieldOp 0x8120#16 = 0x8 ∧ fieldN 0x8120#16 = 0x0) ∧ fieldOp 0xA123#16 = 0xA ∧
    (fieldOp 0xFF29#16 = 0xF ∧ fieldKK 0xFF29#16 = 0x29) := by decide

theorem witness_register_operands : (14 : Reg) ≠ vf ∧ (15 : Reg) = vf ∧ (3 : Reg) = 3 := by decide

theorem witness_ret :
    (State.reset.setStack [0x300, 0x20A]).stack = 0x300 :: [0x20A] ∧ State.reset.stack = [] := ⟨rfl, rfl⟩

theorem witness_call_room :
    (∀ c, State.reset.cfg.stackCapacity = some c → State.reset.stack.length < c) ∧
    (∀ c, ((State.powerOn twoDeep).setStack [0x202]).cfg.stackCapacity = some c →
      ((State.powerOn twoDeep).setStack [0x202]).stack.length < c) :=
  ⟨fun _ h => (by cases h), fun _ h => (by cases h; decide)⟩

theorem witness_call_full :
    ((State.powerOn twoDeep).setStack [0x302, 0x202]).cfg.stackCapacity = some 2 ∧
    2 ≤ ((State.powerOn twoDeep).setStack [0x302, 0x202]).stack.length := ⟨rfl, by decide⟩

theorem witness_call_then_ret :
    exec (.call 0x300) State.reset = .next ((State.reset.setStack [0x200]).setPc 0x300) ∧
    (State.reset.setStack [0x200]).stack = ((State.reset.setStack [0x200]).setPc 0x300).stack := ⟨rfl, rfl⟩

theorem witness_shl_bounds :
    ((withRegs [(1, 127)]).reg 1).toNat < 128 ∧ 128 ≤ ((withRegs [(1, 128)]).reg 1).toNat := by decide

theorem witness_block_bounds :
    ((0 : Reg) ≤ 0 ∧ (15 : Reg) ≤ 15) ∧ (0 : Reg) < 1 ∧ (14 : Reg) < 15 := by decide

theorem witness_store_then_load :
    exec (.ldMiVx 2) State.reset = .next (State.reset.storeRegs 2) ∧
    ((State.reset.storeRegs 2).setReg 1 9).i = State.reset.i ∧
    ∀ a, ((State.reset.storeRegs 2).setReg 1 9).memRead a = (State.reset.storeRegs 2).memRead a :=
  ⟨rfl, by decide, fun _ => rfl⟩

theorem witness_stored_bytes :
    exec (.ldMiVx 15) (State.reset.setI 0xFF1) = .next ((State.reset.setI 0xFF1).storeRegs 15) ∧
    (14 : Reg).val + 1 = (15 : Reg).val ∧ (15 : Reg) ≤ 15 ∧
    (0xFFF : Addr).toNat = ((State.reset.setI 0xFF1).i.toNat + (14 : Reg).val) % 4096 :=
  ⟨rfl, by decide, by decide, by decide⟩

theorem witness_clear_display : ∀ py px, State.reset.display.isOn py px = false := fun _ _ => rfl

theorem witness_display_config :
    Config.reference.wf = true ∧ noPixels.wf = false ∧ 8 ≤ State.reset.cfg.displayW ∧
    15 ≤ State.reset.cfg.displayH ∧ 0 < State.reset.cfg.displayH := by decide

theorem witness_sprite_covers :
    SpriteCovers oneDot 0 0 1 0 0 ∧ (oneDot.setDisplay [(0, 0)]).display.isOn 0 0 = true ∧
    ¬ SpriteCovers oneDot 0 0 0 0 0 :=
  ⟨⟨0, by decide, 0, by decide, by decide, by decide, by decide⟩, by decide, fun ⟨_, h, _⟩ => Nat.not_lt_zero _ h⟩

/-- The smallest display DRW's exact effect speaks of: 8 columns, and as many rows as the sprite. -/
def tight : Config := { Config.reference with displayW := 8, displayH := 5 }

theorem witness_drw_tight :
    8 ≤ (State.powerOn tight).cfg.displayW ∧ 5 ≤ (State.powerOn tight).cfg.displayH ∧
    0 < (State.powerOn tight).cfg.displayH ∧ SpriteCovers (State.powerOn tight) 0 0 5 4 3 :=
  ⟨by decide, by decide, by decide, 4, by decide, 3, by decide, by decide, by decide, by decide⟩

theorem witness_draw_twice :
    (0 : Reg) ≠ vf ∧ Display.wf State.reset.cfg State.reset.display = true ∧
    (∃ t, exec (.drw 0 0 5) State.reset = .next t ∧ ∃ u, exec (.drw 0 0 5) t = .next u) :=
  ⟨by decide, by decide, _, rfl, _, rfl⟩

theorem witness_keys :
    (∃ k : Key, k.val = (((withRegs [(2, 15)]).keyDown 15).reg 2).toNat ∧
      ((withRegs [(2, 15)]).keyDown 15).isPressed k = true) ∧
    ¬ ∃ k : Key, k.val = ((withRegs [(2, 16)]).reg 2).toNat ∧ (withRegs [(2, 16)]).isPressed k = true :=
  ⟨⟨15, by decide, by decide⟩, by decide⟩

/-- The frames: each group's hypothesis `exec i s = .next t` is met. -/
theorem witness_frames :
    exec (.ldImm 15 1) State.reset = .next (State.reset.setReg 15 1) ∧
    exec (.jp 0x300) State.reset = .next (State.reset.setPc 0x300) ∧
    (exec .ret (State.reset.setStack [0x20A]) = .next ((State.reset.setStack []).setPc 0x20A) ∧
      (State.reset.setStack [0x20A]).stack ≠ []) ∧
    exec (.call 0x300) State.reset = .next ((State.reset.setStack [0x200]).setPc 0x300) ∧
    exec (.ldI 1) State.reset = .next (State.reset.setI 1) ∧
    exec (.ldMiVx 15) State.reset = .next (State.reset.storeRegs 15) ∧
    exec (.ldVxMi 14) State.reset = .next (State.reset.loadRegs 14) ∧ (14 : Reg) < 15 :=
  ⟨rfl, rfl, ⟨rfl, by decide⟩, rfl, rfl, rfl, rfl, by decide⟩

theorem witness_frame_of_stores :
    (∃ t, exec (.ldBVx 0) State.reset = .next t) ∧ ∀ k, k < 3 → 3 % 4096 ≠ (State.reset.effAddr 0 + k) % 4096 :=
  ⟨⟨_, rfl⟩, by decide⟩

theorem witness_memory_ranges : 79 < 80 ∧ 80 ≤ 80 ∧ 80 < 4096 ∧ 80 ≤ 4095 ∧ 4095 < 4096 := by decide

theorem witness_load_lengths :
    (List.replicate 3584 (0x12 : Byte)).length ≤ 3584 ∧ 3584 < (List.replicate 3585 (0x12 : Byte)).length := by
  rw [List.length_replicate, List.length_replicate]
  decide

theorem witness_load_range :
    (0x200 ≤ 0x201 ∧ 0x201 < 0x200 + [0x12#8, 0x08#8].length) ∧ ¬ (0x200 ≤ 0x1FF ∧ 0x1FF < 0x200 + 2) := by decide

theorem witness_invariant : State.reset.Inv :=
  ⟨by decide, by decide, by decide, by decide, by decide, fun _ h => (by cases h), by decide⟩

theorem witness_invariant_step : State.reset.Inv ∧ ∃ t, step State.reset = .next t := ⟨witness_invariant, _, rfl⟩

theorem witness_wait_step : waiting.paused = true ∧ step waiting = .next (waiting.setSlot 1) := ⟨rfl, rfl⟩

theorem witness_timers_change :
    (nextOf (step ((holding 0xF515).setReg 5 9))).map State.dt = some 9 ∧
    (nextOf (step ((holding 0xF518).setReg 5 9))).map State.st = some 9 ∧
    (nextOf (step ((State.reset.setDt 3).setSlot 10))).map State.dt = some 2 := by decide

theorem witness_stack_and_memory_change :
    (nextOf (step (holding 0x2300))).map State.stack = some [0x202] ∧
    (nextOf (step ((holding 0xF055).setReg 0 9))).map (fun t => t.memRead 0) = some 9 := by decide

theorem witness_keys_constant :
    (∃ t, step State.reset = .next t) ∧ State.reset.NoKeyDue ∧ 0 < (State.reset.setSlot 1).slot :=
  ⟨⟨_, rfl⟩, rfl, by decide⟩

theorem witness_no_read_of_st : (∀ x, Instr.cls ≠ .ldStVx x) ∧ Instr.ldStVx 3 = .ldStVx 3 :=
  ⟨fun _ h => (by cases h), rfl⟩

theorem witness_self_jump :
    (holding 0x1200).AtSelfJump ∧ (holding 0x1200).NoKeyDue ∧
    step (holding 0x1200) = .next (((holding 0x1200).setPc 0x200).setSlot 1) :=
  ⟨⟨rfl, rfl, by decide⟩, rfl, rfl⟩

/-- The program `6005 1202` booted, and the same after its first step. -/
def jumper : State := (State.powerOn oneSlot).writeBytes 0x200 [0x60, 0x05, 0x12, 0x02]
def jumped : State := ((jumper.setPc 0x202).setReg 0 5).setSlot 1

theorem witness_first_self_jump : FirstSelfJump jumper jumped :=
  ⟨1, rfl, ⟨rfl, rfl, by decide⟩, fun j hj u hu => by
    obtain rfl : j = 0 := by omega
    cases hu
    rintro ⟨_, _, h⟩
    exact absurd h (by decide)⟩

theorem witness_ends_at_self_jump : EndsAtSelfJump oneSlot [0x60, 0x05, 0x12, 0x02] [] jumped :=
  ⟨jumper, rfl, witness_first_self_jump⟩

theorem witness_run_after_self_jump : ∃ t : State, Host.Core.run Sys2Proof.core 1 jumped = .next t := ⟨_, rfl⟩

theorem witness_ends_after_ticks :
    ∃ s, GoodEndAfterTicks oneSlot [0x12, 0x00] [.keyDown 7, .tick] 1 s :=
  ⟨_, ⟨by decide, by decide, rfl⟩, rfl⟩

theorem witness_schedule : oneSlot.wf = true ∧ [0x12#8, 0x00#8].length ≤ 3584 := by decide

theorem witness_tick : State.reset.slot = 0 ∧ State.reset.NoKeyDue := ⟨rfl, rfl⟩

end Sys2Proof.Tests
end

namespace Sys2Proof.Machine

/-! ### Register loads and the immediate sum (spec/42_alu.md R142 to R144) -/

/-- Group 8 with `n` = 0 is LD_REG (R78). -/
theorem decodeGroup8_n0 {w : Word} (hn : fieldN w = 0x0#4) :
    decodeGroup8 w = .instr (.ldReg (fieldX w) (fieldY w)) := by
  simp [decodeGroup8, hn]

theorem exec_ldImm (s : State) (x : Reg) (kk : Byte) : exec (.ldImm x kk) s = .next (s.setReg x kk) := rfl

theorem exec_addImm (s : State) (x : Reg) (kk : Byte) :
    exec (.addImm x kk) s = .next (s.setReg x (s.reg x + kk)) := rfl

theorem exec_ldReg (s : State) (x y : Reg) : exec (.ldReg x y) s = .next (s.setReg x (s.reg y)) := rfl

/-- A write to a register other than VF leaves VF alone. -/
theorem State.vf_setReg (s : State) {x : Reg} (b : Byte) (hx : x ≠ vf) : (s.setReg x b).reg vf = s.reg vf :=
  s.reg_setReg_other b hx.symm

/-- Writing to a register the byte it already holds changes no register. -/
theorem State.reg_setReg_self (s : State) (x r : Reg) : (s.setReg x (s.reg x)).reg r = s.reg r := by
  rw [State.reg_setReg]
  split
  · next h => rw [h]
  · rfl

/-- Settles O20: LD_IMM is one register write of the immediate. -/
theorem ldImmLoadsTheImmediate : Obligations.LdImmLoadsTheImmediate := by
  refine ⟨fun _ => decodeWord_op6, fun s x kk => ⟨_, exec_ldImm s x kk, ?_, ?_, ?_⟩⟩
  · exact s.reg_setReg_same x kk
  · exact s.vf_setReg kk
  · exact s.setReg_halted x kk

/-- Settles O21: ADD_IMM is one register write of the byte sum, and byte addition reduces modulo 256. -/
theorem addImmWrapsAndSetsNoFlag : Obligations.AddImmWrapsAndSetsNoFlag := by
  refine ⟨fun _ => decodeWord_op7, fun s x kk => ⟨_, exec_addImm s x kk, ?_, ?_, ?_⟩⟩
  · rw [State.reg_setReg_same, BitVec.toNat_add]
  · exact s.vf_setReg _
  · exact s.setReg_halted x _

/-- Settles O22: LD_REG is one register write of V[y]; for x = y it writes the byte already there. -/
theorem ldRegCopies : Obligations.LdRegCopies := by
  refine ⟨fun _ hop hn => (decodeWord_op8 hop).trans (decodeGroup8_n0 hn),
    fun s x y => ⟨_, exec_ldReg s x y, ?_, ?_, ?_, ?_⟩⟩
  · exact s.reg_setReg_same x _
  · exact s.vf_setReg _
  · rintro rfl
    exact s.reg_setReg_self x
  · exact s.setReg_halted x _

end Sys2Proof.Machine

namespace Sys2Proof.Machine

/-! ### Loads of the address register (spec/43_index_memory.md R170, R172) -/

/-- Group F with `kk` = 29 is LD_F_VX (R80). -/
theorem decodeGroupF_kk29 {w : Word} (hkk : fieldKK w = 0x29#8) :
    decodeGroupF w = .instr (.ldFVx (fieldX w)) := by
  simp [decodeGroupF, hkk]

theorem exec_ldI (s : State) (nnn : Addr) : exec (.ldI nnn) s = .next (s.setI nnn) := rfl

theorem exec_ldFVx (s : State) (x : Reg) : exec (.ldFVx x) s = .next (s.setI (zext12 (s.reg x) * 5)) := rfl

@[simp] theorem toNat_zext12 (b : Byte) : (zext12 b).toNat = b.toNat :=
  BitVec.toNat_setWidth_of_le (by decide)

/-- Five times a byte is at most 1275, so the sprite address needs no reduction modulo 4096 (R172). -/
theorem toNat_zext12_mul_five (b : Byte) : (zext12 b * 5).toNat = b.toNat * 5 := by
  have hfits : b.toNat * 5 < 2 ^ 12 := by have := b.isLt; omega
  calc (zext12 b * 5).toNat
      = b.toNat * 5 % 2 ^ 12 := by rw [BitVec.toNat_mul, toNat_zext12]; rfl
    _ = b.toNat * 5 := Nat.mod_eq_of_lt hfits

/-- Settles O29: LD_I is one write of I, which touches no register and no fault record. -/
theorem ldILoadsI : Obligations.LdILoadsI := by
  refine ⟨fun _ => decodeWord_opA, fun s nnn => ⟨_, exec_ldI s nnn, ?_, ?_, ?_⟩⟩
  · exact s.setI_i nnn
  · exact s.reg_setI nnn vf
  · exact s.setI_halted nnn

/-- Settles O31: LD_F_VX is one write of I, and the product of the whole byte fits 12 bits. -/
theorem ldFPointsAtTheSprite : Obligations.LdFPointsAtTheSprite := by
  refine ⟨fun _ hop hkk => (decodeWord_opF hop).trans (decodeGroupF_kk29 hkk),
    fun s x => ⟨_, exec_ldFVx s x, ?_, ?_, ?_⟩⟩
  · rw [State.setI_i, toNat_zext12_mul_five]
  · exact s.reg_setI _ vf
  · exact s.setI_halted _

end Sys2Proof.Machine

namespace Sys2Proof.Machine

/-! ### Clearing the display (spec/45_devices.md R200; spec/60_exceptions.md R237) -/

theorem exec_cls (s : State) : exec .cls s = .next s.clearDisplay := rfl

@[simp] theorem State.clearDisplay_display (s : State) : s.clearDisplay.display = [] := rfl

/-- Group 0 gives CLS the one word 0x00E0 (R75). -/
theorem decodeGroup0_cls : decodeGroup0 0x00E0#16 = .instr .cls := if_pos rfl

/-- Every pixel is off exactly when the buffer lists none (R34). -/
theorem Display.allOff_iff {d : Display} : (∀ py px, d.isOn py px = false) ↔ d = [] := by
  simp only [Display.isOn, decide_eq_false_iff_not, List.eq_nil_iff_forall_not_mem, Prod.forall]

/-- Setting the buffer to what it already is changes nothing. -/
theorem State.setDisplay_self (s : State) : s.setDisplay s.display = s := rfl

/-- A new pixel buffer leaves every other part of the state as it was. -/
theorem State.keepsAllBut_setDisplay (s : State) (d : Display) : KeepsAllBut [.display] s (s.setDisplay d) := by
  intro p hp
  cases p
  case display => exact absurd List.mem_cons_self hp
  case regs => exact s.reg_setDisplay d
  case mem => exact s.memRead_setDisplay d
  case wait => exact ⟨s.setDisplay_paused d, s.setDisplay_waitReg d⟩
  all_goals rfl

/-- Clearing a clear display changes nothing (R200). -/
theorem State.clearDisplay_of_allOff {s : State} (h : ∀ py px, s.display.isOn py px = false) :
    s.clearDisplay = s :=
  calc s.clearDisplay
      = s.setDisplay s.display := by rw [Display.allOff_iff.1 h, State.clearDisplay]
    _ = s := s.setDisplay_self

/-- Settles O38: CLS is one write of the empty pixel buffer. -/
theorem clsTurnsEveryPixelOff : Obligations.ClsTurnsEveryPixelOff := by
  refine ⟨(decodeWord_op0 (by decide)).trans decodeGroup0_cls,
    fun s => ⟨_, exec_cls s, ?_, ?_, State.clearDisplay_of_allOff⟩⟩
  · exact Display.allOff_iff.2 s.clearDisplay_display
  · exact s.keepsAllBut_setDisplay []

end Sys2Proof.Machine

namespace Sys2Proof.Machine

/-! ### Decoding what was encoded (spec/30_encoding.md R71, R74, R88) -/

/-- A row count of a well-formed DRW fits its 4-bit field (R72). -/
theorem toNat_rowCount {n : Nat} (h : n < 16) : (BitVec.ofNat 4 n).toNat = n := by
  rw [BitVec.toNat_ofNat, Nat.mod_eq_of_lt h]

/-- Dispatch on the high nibble, then on the secondary field, reaches the constructor encoded, and each field
reads back as the operand packed into it. -/
theorem decodeWord_encode {i : Instr} (h : i.wf = true) : decodeWord (encode i) = .instr i := by
  cases i with
  | cls => exact (decodeWord_op0 (by decide)).trans decodeGroup0_cls
  | ret => exact decodeWord_op0 (by decide)
  | jp nnn | call nnn | ldI nnn | jpV0 nnn => simp [encode, decodeWord]
  | seImm x kk | sneImm x kk | ldImm x kk | addImm x kk | rnd x kk => simp [encode, decodeWord]
  | seReg x y | sneReg x y => simp [encode, decodeWord, decodeNZero]
  | ldReg x y | orReg x y | andReg x y | xorReg x y | addReg x y | sub x y | shr x y | subn x y | shl x y =>
    simp [encode, decodeWord, decodeGroup8]
  | drw x y n =>
    have hn : n < 16 := by simpa [Instr.wf] using h
    rw [encode, decodeWord_opD (by simp), fieldX_packXYN, fieldY_packXYN, fieldN_packXYN, toNat_rowCount hn]
  | skp x | sknp x => simp [encode, decodeWord, decodeGroupE]
  | ldVxDt x | ldDtVx x | ldStVx x | ldVxK x | addIVx x | ldFVx x | ldBVx x | ldMiVx x | ldVxMi x =>
    simp [encode, decodeWord, decodeGroupF]

/-- The bytes of a word decode as the word, whatever follows them (R70). -/
theorem decodeBytes_bytes (w : Word) (rest : List Byte) :
    decodeBytes ([hiByte w, loByte w] ++ rest) = (decodeWord w, rest) := by
  simp [decodeBytes]

/-- Settles O2: by the constructors of the instruction; the bytes of a word are the word again. -/
theorem decodeOfEncodeIsTheInstruction : Obligations.DecodeOfEncodeIsTheInstruction := by
  intro i hi
  have hword := decodeWord_encode hi
  exact ⟨hword, fun rest => by rw [encodeBytes, decodeBytes_bytes, hword]⟩

/-! ### Encoding what was decoded (spec/30_encoding.md R75 to R80, R82, R88) -/

/-- In a group of mask 0xF00F the word is packed from its fields, the group's nibble and `n`. -/
theorem packXYN_of_fields {w : Word} {op n : BitVec 4} (hop : fieldOp w = op) (hn : fieldN w = n) :
    packXYN op (fieldX w) (fieldY w) n = w := by
  rw [← hop, ← hn, packXYN_fields]

/-- In a group of mask 0xF0FF the word is packed from its fields, the group's nibble and `kk`. -/
theorem packXKK_of_fields {w : Word} {op : BitVec 4} {kk : Byte} (hop : fieldOp w = op) (hkk : fieldKK w = kk) :
    packXKK op (fieldX w) kk = w := by
  rw [← hop, ← hkk, packXKK_fields]

/-- In a group that reads an address the word is packed from its nibble and the address. -/
theorem packNNN_of_op {w : Word} {op : BitVec 4} (hop : fieldOp w = op) : packNNN op (fieldNNN w) = w := by
  rw [← hop, packNNN_fields]

/-- All that group 0 decodes (R75). -/
theorem decodeGroup0_cases {w : Word} {i : Instr} (h : decodeGroup0 w = .instr i) :
    (w = 0x00E0#16 ∧ i = .cls) ∨ (w = 0x00EE#16 ∧ i = .ret) := by
  unfold decodeGroup0 at h
  split at h
  · next hw => cases h; exact .inl ⟨hw, rfl⟩
  · split at h
    · next hw => cases h; exact .inr ⟨hw, rfl⟩
    · cases h

/-- All that groups 5 and 9 decode (R77). -/
theorem decodeNZero_cases {w : Word} {i j : Instr} (h : decodeNZero w j = .instr i) :
    fieldN w = 0x0#4 ∧ i = j := by
  unfold decodeNZero at h
  split at h
  · next hn => cases h; exact ⟨hn, rfl⟩
  · cases h

/-- Group 8 decodes to an instruction whose encoding has the word's fields (R78). -/
theorem encode_decodeGroup8 {w : Word} {i : Instr} (h : decodeGroup8 w = .instr i) :
    encode i = packXYN 0x8 (fieldX w) (fieldY w) (fieldN w) ∧ i.wf = true := by
  unfold decodeGroup8 at h
  split at h <;> cases h <;>
    exact ⟨congrArg (packXYN 0x8 _ _) (BitVec.eq_of_toNat_eq (by simp [*])), rfl⟩

/-- Group E decodes to an instruction whose encoding has the word's fields (R79). -/
theorem encode_decodeGroupE {w : Word} {i : Instr} (h : decodeGroupE w = .instr i) :
    encode i = packXKK 0xE (fieldX w) (fieldKK w) ∧ i.wf = true := by
  unfold decodeGroupE at h
  repeat' split at h
  all_goals cases h
  all_goals exact ⟨by simp [encode, *], rfl⟩

/-- Group F decodes to an instruction whose encoding has the word's fields (R80). -/
theorem encode_decodeGroupF {w : Word} {i : Instr} (h : decodeGroupF w = .instr i) :
    encode i = packXKK 0xF (fieldX w) (fieldKK w) ∧ i.wf = true := by
  unfold decodeGroupF at h
  repeat' split at h
  all_goals cases h
  all_goals exact ⟨by simp [encode, *], rfl⟩

/-- Settles O3: group by group, the encoding packs again the fields that the dispatch read. -/
theorem encodeOfDecodeIsTheWord : Obligations.EncodeOfDecodeIsTheWord := by
  intro w i h
  rcases fieldOp_cases w with hop | hop | hop | hop | hop | hop | hop | hop | hop | hop | hop | hop | hop | hop |
    hop | hop
  · rw [decodeWord_op0 hop] at h
    rcases decodeGroup0_cases h with ⟨rfl, rfl⟩ | ⟨rfl, rfl⟩ <;> exact ⟨rfl, rfl⟩
  · rw [decodeWord_op1 hop] at h; cases h; exact ⟨packNNN_of_op hop, rfl⟩
  · rw [decodeWord_op2 hop] at h; cases h; exact ⟨packNNN_of_op hop, rfl⟩
  · rw [decodeWord_op3 hop] at h; cases h; exact ⟨packXKK_of_fields hop rfl, rfl⟩
  · rw [decodeWord_op4 hop] at h; cases h; exact ⟨packXKK_of_fields hop rfl, rfl⟩
  · rw [decodeWord_op5 hop] at h
    obtain ⟨hn, rfl⟩ := decodeNZero_cases h
    exact ⟨packXYN_of_fields hop hn, rfl⟩
  · rw [decodeWord_op6 hop] at h; cases h; exact ⟨packXKK_of_fields hop rfl, rfl⟩
  · rw [decodeWord_op7 hop] at h; cases h; exact ⟨packXKK_of_fields hop rfl, rfl⟩
  · rw [decodeWord_op8 hop] at h
    obtain ⟨henc, hwf⟩ := encode_decodeGroup8 h
    exact ⟨henc.trans (packXYN_of_fields hop rfl), hwf⟩
  · rw [decodeWord_op9 hop] at h
    obtain ⟨hn, rfl⟩ := decodeNZero_cases h
    exact ⟨packXYN_of_fields hop hn, rfl⟩
  · rw [decodeWord_opA hop] at h; cases h; exact ⟨packNNN_of_op hop, rfl⟩
  · rw [decodeWord_opB hop] at h; cases h; exact ⟨packNNN_of_op hop, rfl⟩
  · rw [decodeWord_opC hop] at h; cases h; exact ⟨packXKK_of_fields hop rfl, rfl⟩
  · rw [decodeWord_opD hop] at h
    cases h
    refine ⟨?_, decide_eq_true (fieldN w).isLt⟩
    rw [encode, BitVec.ofNat_toNat, BitVec.setWidth_eq]
    exact packXYN_of_fields hop rfl
  · rw [decodeWord_opE hop] at h
    obtain ⟨henc, hwf⟩ := encode_decodeGroupE h
    exact ⟨henc.trans (packXKK_of_fields hop rfl), hwf⟩
  · rw [decodeWord_opF hop] at h
    obtain ⟨henc, hwf⟩ := encode_decodeGroupF h
    exact ⟨henc.trans (packXKK_of_fields hop rfl), hwf⟩

end Sys2Proof.Machine

namespace Sys2Proof.Machine

/-! ### The invariant at reset and along a step (spec/00_scope.md R8; spec/10_state.md R30;
spec/40_cycle.md R106, R112) -/

theorem State.inv_setHost {s : State} (l : List HostAction) (h : s.Inv) : (s.setHost l).Inv := h

theorem State.inv_setKeys {s : State} (k : Vector Bool 16) (h : s.Inv) : (s.setKeys k).Inv := h

theorem State.inv_advancePc {s : State} (h : s.Inv) : s.advancePc.Inv := h

/-- A register write keeps the invariant. -/
theorem State.inv_setReg {s : State} (x : Reg) (b : Byte) (h : s.Inv) : (s.setReg x b).Inv := h

/-- The end of a wait keeps the invariant (R30). -/
theorem State.inv_setWait_none {s : State} (h : s.Inv) : (s.setWait none).Inv := by
  obtain ⟨hcfg, hmem, hdisplay, -, hhalt, hstack, hslot⟩ := h
  exact ⟨hcfg, hmem, hdisplay, rfl, fun hh => ⟨rfl, (hhalt hh).2⟩, hstack, hslot⟩

/-- A key-down sets a key, and may write a register and end a wait (R205). -/
theorem State.inv_keyDown {s : State} (k : Key) (h : s.Inv) : (s.keyDown k).Inv := by
  rcases s.keyDown_cases k with ⟨-, heq⟩ | ⟨-, x, -, heq⟩ | ⟨-, -, heq⟩ <;> rw [heq]
  · exact State.inv_setKeys _ h
  · exact State.inv_setWait_none (State.inv_setReg x _ (State.inv_setKeys _ h))
  · exact State.inv_setWait_none (State.inv_setKeys _ h)

/-- A position within the tick may become any other, unless the machine is halted. -/
theorem State.inv_setSlot {s : State} {n : Nat} (h : s.Inv) (hrun : s.halted = none) (hn : n ≤ s.cfg.ipt) :
    (s.setSlot n).Inv := by
  obtain ⟨hcfg, hmem, hdisplay, hwait, -, hstack, -⟩ := h
  exact ⟨hcfg, hmem, hdisplay, hwait, fun hh => by simp [hrun] at hh, hstack, hn⟩

/-- Between ticks the position is 0, which every state of the invariant may have. -/
theorem State.inv_leaveTick {s : State} (h : s.Inv) : s.leaveTick.Inv := by
  obtain ⟨hcfg, hmem, hdisplay, hwait, hhalt, hstack, -⟩ := h
  exact ⟨hcfg, hmem, hdisplay, hwait, fun hh => ⟨(hhalt hh).1, rfl⟩, hstack, Nat.zero_le _⟩

/-- The end of a tick writes the timers and the tone, of which the invariant says nothing. -/
theorem State.inv_endTick {s : State} (h : s.Inv) : s.endTick.Inv :=
  State.inv_leaveTick (s := (((s.setDt (countDown s.dt)).setSt (countDown s.st)).flush).setTone _) h

/-- `waitReg` stays set exactly while paused: an instruction keeps both, or begins a wait for a register. -/
theorem WaitAndHalt.waitReg_isSome {s t : State} (h : WaitAndHalt s t) (hs : s.waitReg.isSome = s.paused) :
    t.waitReg.isSome = t.paused := by
  rcases h with ⟨hpaused, hwait, -⟩ | ⟨hpaused, hwait, -⟩ | ⟨hpaused, hwait, -⟩
  · rw [hpaused, hwait, hs]
  · rw [hpaused, hwait]
  · rw [hpaused, hwait, hs]

/-- An instruction that halts a running machine keeps the wait. -/
theorem WaitAndHalt.paused_of_halted {s t : State} (h : WaitAndHalt s t) (hs : s.halted = none)
    (ht : t.halted.isSome = true) : t.paused = s.paused := by
  rcases h with ⟨hpaused, -, -⟩ | ⟨-, -, hhalt⟩ | ⟨hpaused, -, -⟩
  · exact hpaused
  · simp [hhalt, hs] at ht
  · exact hpaused

/-- A slot that has run an instruction keeps the invariant: the slot is counted, or a fault ends the tick with
no wait pending. -/
theorem State.inv_closeSlot {i : Instr} {s t : State} (hs : s.Inv) (hrun : s.halted = none)
    (hpaused : s.paused = false) (hslot : s.slot < s.cfg.ipt) (hkeeps : ExecKeeps i s t) : t.closeSlot.Inv := by
  obtain ⟨hcfg, hmem, hdisplay, hwait, -, hstack, -⟩ := hs
  have hcore : t.cfg.wf = true ∧ Memory.wf t.cfg t.mem = true ∧ Display.wf t.cfg t.display = true ∧
      t.waitReg.isSome = t.paused ∧ ∀ c, t.cfg.stackCapacity = some c → t.stack.length ≤ c := by
    rw [hkeeps.cfg]
    exact ⟨hcfg, hkeeps.memWf hmem, hkeeps.displayWf hdisplay hcfg, hkeeps.waitAndHalt.waitReg_isSome hwait,
      fun c hc => hkeeps.stackRoom c hc (hstack c hc)⟩
  obtain ⟨hcfg', hmem', hdisplay', hwait', hstack'⟩ := hcore
  cases hhalt : t.halted with
  | none =>
    rw [State.closeSlot_running hhalt]
    refine ⟨hcfg', hmem', hdisplay', hwait', fun hh => ?_, hstack', ?_⟩
    · simp [hhalt] at hh
    · rw [State.setSlot_slot, State.setSlot_cfg, hkeeps.slot, hkeeps.cfg]
      exact hslot
  | some f =>
    rw [State.closeSlot_halted hhalt]
    have hnotPaused : t.paused = false :=
      (hkeeps.waitAndHalt.paused_of_halted hrun (by simp [hhalt])).trans hpaused
    exact ⟨hcfg', hmem', hdisplay', hwait', fun _ => ⟨hnotPaused, rfl⟩, hstack', Nat.zero_le _⟩

/-- Settles O52: one lemma per way a step can go. -/
theorem stepKeepsTheInvariant : Obligations.StepKeepsTheInvariant := by
  intro s t hs hstep
  rcases step_cases hstep with hkey | ⟨-, -, rfl⟩ | ⟨-, hrun, hslot, -, rfl⟩ |
    ⟨⟨-, hrun, hpaused, hslot⟩, i, u, -, hexec, rfl⟩ | ⟨⟨-, hrun, hpaused, hslot⟩, -, rfl⟩ | ⟨-, -, -, rfl⟩
  · rcases State.keyEvent_cases hkey with ⟨-, ⟨k, rest, -, rfl⟩ | ⟨k, rest, -, rfl⟩⟩
    · exact State.inv_keyDown k (State.inv_setHost rest hs)
    · exact State.inv_setKeys _ (State.inv_setHost rest hs)
  · exact State.inv_leaveTick hs
  · exact State.inv_setSlot hs hrun hslot
  · exact State.inv_closeSlot (State.inv_advancePc hs) hrun hpaused hslot (exec_keeps hexec)
  · exact State.inv_closeSlot (State.inv_advancePc hs) hrun hpaused hslot
      (execKeeps_of_fault (i := .cls) _ _)
  · exact State.inv_endTick hs

/-- A new machine of a well-formed configuration lists no byte, no pixel and no return address. -/
theorem State.inv_powerOn {c : Config} (h : c.wf = true) : (State.powerOn c).Inv :=
  ⟨h, Memory.wf_powerOn c, Display.wf_iff.2 ⟨.nil, fun _ hp => absurd hp List.not_mem_nil⟩, rfl,
    fun hh => (by cases hh), fun _ _ => Nat.zero_le _, Nat.zero_le _⟩

/-- Settles O51: the reference configuration is well-formed. -/
theorem invHoldsAtReset : Obligations.InvHoldsAtReset :=
  ⟨fun _ => State.inv_powerOn, State.inv_powerOn (by decide)⟩

end Sys2Proof.Machine

namespace Sys2Proof.Machine

/-! ### Dispatch and the opcode map (spec/30_encoding.md R74 to R82) -/

theorem OpcodeRow.spells_iff {r : OpcodeRow} {w : Word} : r.spells w = true ↔ w &&& r.mask = r.pattern :=
  beq_iff_eq

/-- The word of every instruction spells its row of the map. -/
theorem spells_encode (i : Instr) : (opcodeRow i).spells (encode i) = true :=
  OpcodeRow.spells_iff.2 <| match i with
    | .cls => Laws.EncodesItsRow.cls
    | .ret => Laws.EncodesItsRow.ret
    | .jp nnn => Laws.EncodesItsRow.jp nnn
    | .call nnn => Laws.EncodesItsRow.call nnn
    | .seImm x kk => Laws.EncodesItsRow.seImm x kk
    | .sneImm x kk => Laws.EncodesItsRow.sneImm x kk
    | .seReg x y => Laws.EncodesItsRow.seReg x y
    | .sneReg x y => Laws.EncodesItsRow.sneReg x y
    | .ldImm x kk => Laws.EncodesItsRow.ldImm x kk
    | .addImm x kk => Laws.EncodesItsRow.addImm x kk
    | .ldReg x y => Laws.EncodesItsRow.ldReg x y
    | .orReg x y => Laws.EncodesItsRow.orReg x y
    | .andReg x y => Laws.EncodesItsRow.andReg x y
    | .xorReg x y => Laws.EncodesItsRow.xorReg x y
    | .addReg x y => Laws.EncodesItsRow.addReg x y
    | .sub x y => Laws.EncodesItsRow.sub x y
    | .shr x y => Laws.EncodesItsRow.shr x y
    | .subn x y => Laws.EncodesItsRow.subn x y
    | .shl x y => Laws.EncodesItsRow.shl x y
    | .ldI nnn => Laws.EncodesItsRow.ldI nnn
    | .jpV0 nnn => Laws.EncodesItsRow.jpV0 nnn
    | .rnd x kk => Laws.EncodesItsRow.rnd x kk
    | .drw x y n => Laws.EncodesItsRow.drw x y n
    | .skp x => Laws.EncodesItsRow.skp x
    | .sknp x => Laws.EncodesItsRow.sknp x
    | .ldVxDt x => Laws.EncodesItsRow.ldVxDt x
    | .ldDtVx x => Laws.EncodesItsRow.ldDtVx x
    | .ldStVx x => Laws.EncodesItsRow.ldStVx x
    | .ldVxK x => Laws.EncodesItsRow.ldVxK x
    | .addIVx x => Laws.EncodesItsRow.addIVx x
    | .ldFVx x => Laws.EncodesItsRow.ldFVx x
    | .ldBVx x => Laws.EncodesItsRow.ldBVx x
    | .ldMiVx x => Laws.EncodesItsRow.ldMiVx x
    | .ldVxMi x => Laws.EncodesItsRow.ldVxMi x

/-- Every instruction's row is in the map: a row has no operand. -/
theorem opcodeRow_mem_opcodeMap (i : Instr) : opcodeRow i ∈ opcodeMap := by
  cases i <;> simp [opcodeMap, opcodeRow]

/-- Every row of the map is an instruction's. -/
theorem exists_opcodeRow : ∀ r ∈ opcodeMap, ∃ i, opcodeRow i = r := by
  simp [opcodeMap]

/-- A word with a pattern's bits under the mask 0xF000 has its high nibble. -/
theorem fieldOp_of_mask {w p : Word} (h : w &&& 0xF000#16 = p) : fieldOp w = fieldOp p := by
  rw [← h, mask_op, fieldOp_packNNN]

/-- A word with a pattern's bits under the mask 0xF0FF has its high nibble and low byte. -/
theorem fieldOp_fieldKK_of_mask {w p : Word} (h : w &&& 0xF0FF#16 = p) :
    fieldOp w = fieldOp p ∧ fieldKK w = fieldKK p := by
  rw [← h, mask_op_kk, fieldOp_packXKK, fieldKK_packXKK]
  exact ⟨rfl, rfl⟩

/-- A word with a pattern's bits under the mask 0xF00F has its high and low nibbles. -/
theorem fieldOp_fieldN_of_mask {w p : Word} (h : w &&& 0xF00F#16 = p) :
    fieldOp w = fieldOp p ∧ fieldN w = fieldN p := by
  rw [← h, mask_op_n, fieldOp_packXYN, fieldN_packXYN]
  exact ⟨rfl, rfl⟩

/-- A word with a pattern's bits under the full mask is the pattern. -/
theorem eq_of_fullMask {w p : Word} (h : w &&& 0xFFFF#16 = p) : w = p :=
  (BitVec.and_allOnes (x := w)).symm.trans h

/-- A word that spells an instruction's row decodes to an instruction of that row: the row fixes the fields
that the dispatch reads. -/
theorem decodeWord_of_spells {w : Word} {i : Instr} (h : (opcodeRow i).spells w = true) :
    ∃ j, decodeWord w = .instr j ∧ opcodeRow j = opcodeRow i := by
  have hmask := OpcodeRow.spells_iff.1 h
  cases i <;> dsimp only [opcodeRow] at hmask
  case cls => exact ⟨_, eq_of_fullMask hmask ▸ decodeWord_encode (i := .cls) rfl, rfl⟩
  case ret => exact ⟨_, eq_of_fullMask hmask ▸ decodeWord_encode (i := .ret) rfl, rfl⟩
  case jp => exact ⟨_, decodeWord_op1 (fieldOp_of_mask hmask), rfl⟩
  case call => exact ⟨_, decodeWord_op2 (fieldOp_of_mask hmask), rfl⟩
  case seImm => exact ⟨_, decodeWord_op3 (fieldOp_of_mask hmask), rfl⟩
  case sneImm => exact ⟨_, decodeWord_op4 (fieldOp_of_mask hmask), rfl⟩
  case ldImm => exact ⟨_, decodeWord_op6 (fieldOp_of_mask hmask), rfl⟩
  case addImm => exact ⟨_, decodeWord_op7 (fieldOp_of_mask hmask), rfl⟩
  case ldI => exact ⟨_, decodeWord_opA (fieldOp_of_mask hmask), rfl⟩
  case jpV0 => exact ⟨_, decodeWord_opB (fieldOp_of_mask hmask), rfl⟩
  case rnd => exact ⟨_, decodeWord_opC (fieldOp_of_mask hmask), rfl⟩
  case drw => exact ⟨_, decodeWord_opD (fieldOp_of_mask hmask), rfl⟩
  case seReg =>
    obtain ⟨hop, hn⟩ := fieldOp_fieldN_of_mask hmask
    exact ⟨_, (decodeWord_op5 hop).trans (if_pos hn), rfl⟩
  case sneReg =>
    obtain ⟨hop, hn⟩ := fieldOp_fieldN_of_mask hmask
    exact ⟨_, (decodeWord_op9 hop).trans (if_pos hn), rfl⟩
  case ldReg | orReg | andReg | xorReg | addReg | sub | shr | subn | shl =>
    obtain ⟨hop, hn⟩ := fieldOp_fieldN_of_mask hmask
    have hdec := decodeWord_op8 hop
    rw [decodeGroup8, hn] at hdec
    exact ⟨_, hdec, rfl⟩
  case skp | sknp =>
    obtain ⟨hop, hkk⟩ := fieldOp_fieldKK_of_mask hmask
    have hdec := decodeWord_opE hop
    rw [decodeGroupE, hkk] at hdec
    exact ⟨_, hdec, rfl⟩
  case ldVxDt | ldDtVx | ldStVx | ldVxK | addIVx | ldFVx | ldBVx | ldMiVx | ldVxMi =>
    obtain ⟨hop, hkk⟩ := fieldOp_fieldKK_of_mask hmask
    have hdec := decodeWord_opF hop
    rw [decodeGroupF, hkk] at hdec
    exact ⟨_, hdec, rfl⟩

/-- A row of the map that a word spells is the row of the instruction it decodes to. -/
theorem row_of_spells {w : Word} {r : OpcodeRow} (hr : r ∈ opcodeMap) (h : r.spells w = true) :
    ∃ j, decodeWord w = .instr j ∧ opcodeRow j = r := by
  obtain ⟨i, rfl⟩ := exists_opcodeRow r hr
  exact decodeWord_of_spells h

/-- Settles O4: a decoded word is an encoding, which spells its row, and a spelled row is that of the decoded
instruction, so there is at most one. -/
theorem decodeFollowsTheOpcodeMap : Obligations.DecodeFollowsTheOpcodeMap := by
  refine ⟨rfl, fun w => ?_, fun w r hr q hq hrw hqw => ?_⟩
  · rcases decodeWord_cases w with ⟨i, hi⟩ | hi
    · obtain ⟨henc, -⟩ := encodeOfDecodeIsTheWord w i hi
      exact .inl ⟨i, hi, opcodeRow_mem_opcodeMap i, henc ▸ spells_encode i⟩
    · refine .inr ⟨hi, fun r hr => ?_⟩
      by_contra hspells
      obtain ⟨j, hj, -⟩ := row_of_spells hr (eq_true_of_ne_false hspells)
      rw [hi] at hj
      cases hj
  · obtain ⟨i, hi, rfl⟩ := row_of_spells hr hrw
    obtain ⟨j, hj, rfl⟩ := row_of_spells hq hqw
    rw [hi] at hj
    cases hj
    rfl

/-- Settles O1: fourteen closed words. -/
theorem writtenOutWordsDecode : Obligations.WrittenOutWordsDecode := by
  unfold Obligations.WrittenOutWordsDecode
  decide

end Sys2Proof.Machine

namespace Sys2Proof.Machine

/-! ### Frames (spec/00_scope.md R14): how they compose, and the frame of each setter -/

theorem Agree.trans {s t u : State} {p : Part} (hst : Agree s t p) (htu : Agree t u p) : Agree s u p := by
  cases p
  case regs | mem => exact fun a => Eq.trans (htu a) (hst a)
  case wait => exact ⟨htu.1.trans hst.1, htu.2.trans hst.2⟩
  all_goals exact Eq.trans htu hst

/-- Two changes in a row keep what both keep. -/
theorem KeepsAllBut.trans {a b : List Part} {s t u : State} (hst : KeepsAllBut a s t) (htu : KeepsAllBut b t u) :
    KeepsAllBut (a ++ b) s u := by
  intro p hp
  rw [List.mem_append, not_or] at hp
  exact (hst p hp.1).trans (htu p hp.2)

theorem KeepsAllBut.mono {a b : List Part} {s t : State} (h : KeepsAllBut a s t) (hab : a ⊆ b) :
    KeepsAllBut b s t :=
  fun p hp => h p fun hmem => hp (hab hmem)

theorem KeepsAllBut.refl (l : List Part) (s : State) : KeepsAllBut l s s := by
  intro p _
  cases p
  case regs | mem => exact fun _ => rfl
  case wait => exact ⟨rfl, rfl⟩
  all_goals rfl

section
variable (s : State)

theorem State.keepsAllBut_setMem (m : Memory) : KeepsAllBut [.mem] s (s.setMem m) := by
  intro p hp; cases p <;> simp_all [Agree]
theorem State.keepsAllBut_setV (w : Vector Byte 16) : KeepsAllBut [.regs] s (s.setV w) := by
  intro p hp; cases p <;> simp_all [Agree]
theorem State.keepsAllBut_setI (a : Addr) : KeepsAllBut [.index] s (s.setI a) := by
  intro p hp; cases p <;> simp_all [Agree]
theorem State.keepsAllBut_setPc (a : Addr) : KeepsAllBut [.pc] s (s.setPc a) := by
  intro p hp; cases p <;> simp_all [Agree]
theorem State.keepsAllBut_setStack (l : List Addr) : KeepsAllBut [.stack] s (s.setStack l) := by
  intro p hp; cases p <;> simp_all [Agree]
theorem State.keepsAllBut_setDt (b : Byte) : KeepsAllBut [.dt] s (s.setDt b) := by
  intro p hp; cases p <;> simp_all [Agree]
theorem State.keepsAllBut_setSt (b : Byte) : KeepsAllBut [.st] s (s.setSt b) := by
  intro p hp; cases p <;> simp_all [Agree]
theorem State.keepsAllBut_setWait (w : Option Reg) : KeepsAllBut [.wait] s (s.setWait w) := by
  intro p hp; cases p <;> simp_all [Agree]
theorem State.keepsAllBut_setHalted (h : Option FaultRecord) : KeepsAllBut [.halted] s (s.setHalted h) := by
  intro p hp; cases p <;> simp_all [Agree]
theorem State.keepsAllBut_setKeys (k : Vector Bool 16) : KeepsAllBut [.keys] s (s.setKeys k) := by
  intro p hp; cases p <;> simp_all [Agree]
theorem State.keepsAllBut_setTone (b : Bool) : KeepsAllBut [.tone] s (s.setTone b) := by
  intro p hp; cases p <;> simp_all [Agree]
theorem State.keepsAllBut_setSlot (n : Nat) : KeepsAllBut [.slot] s (s.setSlot n) := by
  intro p hp; cases p <;> simp_all [Agree]
theorem State.keepsAllBut_setHost (l : List HostAction) : KeepsAllBut [.host] s (s.setHost l) := by
  intro p hp; cases p <;> simp_all [Agree]
theorem State.keepsAllBut_setDraws (n : Nat) : KeepsAllBut [.draws] s (s.setDraws n) := by
  intro p hp; cases p <;> simp_all [Agree]

end

/-! ### Frames of the shared operations -/

theorem State.keepsRegsBut_setReg (s : State) (x : Reg) (b : Byte) : KeepsRegsBut [x] s (s.setReg x b) :=
  fun _ hr => s.reg_setReg_other b (by simpa using hr)

theorem State.keepsRegsBut_setResultFlag (s : State) (x : Reg) (b f : Byte) :
    KeepsRegsBut [x, vf] s (s.setResultFlag x b f) := by
  intro r hr
  simp only [List.mem_cons, List.not_mem_nil, or_false, not_or] at hr
  rw [State.reg_setResultFlag, if_neg hr.2, if_neg hr.1]

theorem State.keepsAllBut_setReg (s : State) (x : Reg) (b : Byte) : KeepsAllBut [.regs] s (s.setReg x b) :=
  s.keepsAllBut_setV _

theorem State.keepsAllBut_setResultFlag (s : State) (x : Reg) (b f : Byte) :
    KeepsAllBut [.regs] s (s.setResultFlag x b f) :=
  ((s.keepsAllBut_setReg x b).trans ((s.setReg x b).keepsAllBut_setReg vf f)).mono (by simp)

/-- A skip changes PC or nothing. -/
theorem State.keepsAllBut_skipIf (s : State) (c : Bool) : KeepsAllBut [.pc] s (s.skipIf c) := by
  rcases s.skipIf_cases c with ⟨-, h⟩ | ⟨-, h⟩ <;> rw [h]
  · exact s.keepsAllBut_setPc _
  · exact .refl _ s

/-- The end of a tick's bookkeeping changes the position and the host's list alone. -/
theorem State.keepsAllBut_leaveTick (s : State) : KeepsAllBut [.slot, .host] s s.leaveTick :=
  (s.keepsAllBut_setSlot 0).trans ((s.setSlot 0).keepsAllBut_setHost _)

theorem State.keepsAllBut_closeSlot (s : State) : KeepsAllBut [.slot, .host] s s.closeSlot := by
  obtain ⟨n, l, h⟩ := s.closeSlot_eq
  rw [h]
  exact (s.keepsAllBut_setSlot n).trans ((s.setSlot n).keepsAllBut_setHost l)

/-- The end of a tick also counts the timers down and sets the tone. -/
theorem State.keepsAllBut_endTick (s : State) : KeepsAllBut [.dt, .st, .tone, .slot, .host] s s.endTick :=
  (s.keepsAllBut_setDt _).trans <| (State.keepsAllBut_setSt _ _).trans <| (State.keepsAllBut_setTone _ _).trans <|
    State.keepsAllBut_leaveTick _

theorem State.keepsAllBut_raiseFault (s : State) (k : FaultKind) (w : Word) :
    KeepsAllBut [.halted] s (s.raiseFault k w) :=
  s.keepsAllBut_setHalted _

/-! ### Frames of the instructions (decision D20) -/

/-- An instruction that is one register write. -/
theorem frame_of_setReg {s t : State} {x : Reg} {b : Byte} (h : Host.Outcome.next (s.setReg x b) = (.next t : Result)) :
    KeepsRegsBut [x] s t ∧ KeepsAllBut [.regs] s t := by
  cases h
  exact ⟨s.keepsRegsBut_setReg x b, s.keepsAllBut_setReg x b⟩

/-- An instruction that writes a result and its flag. -/
theorem frame_of_setResultFlag {s t : State} {x : Reg} {b f : Byte}
    (h : Host.Outcome.next (s.setResultFlag x b f) = (.next t : Result)) :
    KeepsRegsBut [x, vf] s t ∧ KeepsAllBut [.regs] s t := by
  cases h
  exact ⟨s.keepsRegsBut_setResultFlag x b f, s.keepsAllBut_setResultFlag x b f⟩

/-- RND writes V[x] and uses up a draw. -/
theorem frame_of_rnd {s t : State} {x : Reg} {kk : Byte} (h : exec (.rnd x kk) s = .next t) :
    KeepsRegsBut [x] s t ∧ KeepsAllBut [.regs, .draws] s t := by
  cases h
  have hdraw := s.keepsAllBut_setDraws (s.draws + 1)
  exact ⟨(s.setDraws (s.draws + 1)).keepsRegsBut_setReg x _,
    (hdraw.trans (State.keepsAllBut_setReg _ x _)).mono (by simp)⟩

/-- Fx65 writes V0 to Vx alone. -/
theorem frame_of_ldVxMi {s t : State} {x : Reg} (h : exec (.ldVxMi x) s = .next t) :
    (∀ r, x < r → t.reg r = s.reg r) ∧ KeepsAllBut [.regs] s t := by
  cases h
  refine ⟨fun r hr => by rw [State.reg_loadRegs, if_neg (not_le.2 hr)], ?_⟩
  obtain ⟨w, hw⟩ := s.loadRegs_eq x
  rw [hw]
  exact s.keepsAllBut_setV w

/-- DRW, where it completes, draws on the display and then writes VF. -/
theorem frame_of_drw {s t : State} {x y : Reg} {n : Nat} (h : exec (.drw x y n) s = .next t) :
    KeepsRegsBut [vf] s t ∧ KeepsAllBut [.regs, .display] s t := by
  simp only [exec, execDrw] at h
  split at h <;> cases h
  exact ⟨State.keepsRegsBut_setReg (s.setDisplay _) vf _,
    ((s.keepsAllBut_setDisplay _).trans (State.keepsAllBut_setReg _ vf _)).mono (by simp)⟩

/-- Settles O45: each group is one shared operation. -/
theorem registerWritersFrame : Obligations.RegisterWritersFrame := by
  refine fun s t x y kk n => ⟨fun i hi h => ?_, fun i hi h => ?_, frame_of_rnd, frame_of_ldVxMi, frame_of_drw⟩
  · simp only [List.mem_cons, List.not_mem_nil, or_false] at hi
    rcases hi with rfl | rfl | rfl | rfl | rfl | rfl | rfl <;> exact frame_of_setReg h
  · simp only [List.mem_cons, List.not_mem_nil, or_false] at hi
    rcases hi with rfl | rfl | rfl | rfl | rfl <;> exact frame_of_setResultFlag h

/-- An instruction that loads PC. -/
theorem frame_of_setPc {s t : State} {a : Addr} (h : Host.Outcome.next (s.setPc a) = (.next t : Result)) :
    KeepsAllBut [.pc] s t := by
  cases h
  exact s.keepsAllBut_setPc a

/-- An instruction that is a skip. -/
theorem frame_of_skipIf {s t : State} {c : Bool} (h : Host.Outcome.next (s.skipIf c) = (.next t : Result)) :
    KeepsAllBut [.pc] s t := by
  cases h
  exact s.keepsAllBut_skipIf c

/-- A stack with room is not full, whatever the capacity (R223). -/
theorem State.stackFull_of_room {s : State} (h : ∀ c, s.cfg.stackCapacity = some c → s.stack.length < c) :
    s.stackFull = false := by
  unfold State.stackFull
  split
  · rfl
  · next c hc => exact decide_eq_false (not_le.2 (h c hc))

theorem exec_call_of_not_full {s : State} (nnn : Addr) (h : s.stackFull = false) :
    exec (.call nnn) s = .next ((s.push s.pc).setPc nnn) := by
  simp [exec, execCall, h]

/-- CALL with room pushes PC and jumps (R123). -/
theorem exec_call_of_room {s : State} (nnn : Addr)
    (h : ∀ c, s.cfg.stackCapacity = some c → s.stack.length < c) :
    exec (.call nnn) s = .next ((s.push s.pc).setPc nnn) :=
  exec_call_of_not_full nnn (State.stackFull_of_room h)

/-- RET with an entry pops it into PC (R121). -/
theorem exec_ret_of_cons {s : State} {a : Addr} {rest : List Addr} (h : s.stack = a :: rest) :
    exec .ret s = .next ((s.setStack rest).setPc a) := by
  simp [exec, execRet, h]

/-- A new stack, then a new PC. -/
theorem State.keepsAllBut_setStack_setPc (s : State) (l : List Addr) (a : Addr) :
    KeepsAllBut [.pc, .stack] s ((s.setStack l).setPc a) :=
  ((s.keepsAllBut_setStack l).trans (State.keepsAllBut_setPc _ a)).mono (by simp)

/-- Settles O46: the jumps and skips are one write of PC; CALL and RET also one of the stack. -/
theorem controlTransferFrame : Obligations.ControlTransferFrame := by
  refine fun s t x y kk nnn => ⟨fun i hi h => ?_, fun hroom h => ?_, fun hne h => ?_⟩
  · simp only [List.mem_cons, List.not_mem_nil, or_false] at hi
    rcases hi with rfl | rfl | hskip
    · exact frame_of_setPc h
    · exact frame_of_setPc h
    · rcases hskip with rfl | rfl | rfl | rfl | rfl | rfl <;> exact frame_of_skipIf h
  · rw [exec_call_of_room nnn hroom] at h
    cases h
    exact s.keepsAllBut_setStack_setPc _ nnn
  · obtain ⟨a, rest, hstack⟩ := List.exists_cons_of_ne_nil hne
    rw [exec_ret_of_cons hstack] at h
    cases h
    exact s.keepsAllBut_setStack_setPc rest a

/-- An instruction that loads I. -/
theorem frame_of_setI {s t : State} {a : Addr} (h : Host.Outcome.next (s.setI a) = (.next t : Result)) :
    KeepsAllBut [.index] s t := by
  cases h
  exact s.keepsAllBut_setI a

/-- Settles O47: each instruction is one setter. -/
theorem specialWritersFrame : Obligations.SpecialWritersFrame := by
  refine fun s t x nnn => ⟨fun i hi h => ?_, fun h => ?_, fun h => ?_, fun h => ?_, fun h => ?_⟩
  · simp only [List.mem_cons, List.not_mem_nil, or_false] at hi
    rcases hi with rfl | rfl | rfl <;> exact frame_of_setI h
  · cases h; exact s.keepsAllBut_setDt _
  · cases h; exact s.keepsAllBut_setSt _
  · cases h; exact s.keepsAllBut_setWait _
  · cases h; exact s.keepsAllBut_setDisplay _

theorem State.keepsBytesBut_digits (s : State) (b₀ b₁ b₂ : Byte) :
    KeepsBytesBut (s.effAddr 0) 3 s
      (((s.memWrite (s.effAddr 0) b₀).memWrite (s.effAddr 1) b₁).memWrite (s.effAddr 2) b₂) := by
  intro b hb
  have hother : ∀ k < 3, b % 4096 ≠ s.effAddr k % 4096 := hb
  rw [State.memRead_memWrite_other _ _ (hother 2 (by decide)), State.memRead_memWrite_other _ _ (hother 1 (by decide)),
    State.memRead_memWrite_other _ _ (hother 0 (by decide))]

theorem State.keepsBytesBut_storeRegs (s : State) (x : Reg) :
    KeepsBytesBut (s.effAddr 0) (x.val + 1) s (s.storeRegs x) :=
  fun b hb => s.memRead_storeRegs_other x b fun k hk => hb k.val (Nat.lt_succ_of_le hk)

/-- Settles O48: a store is writes of memory, each at an address of its block. -/
theorem storesFrame : Obligations.StoresFrame := by
  refine fun s t x => ⟨fun h => ?_, fun h => ?_⟩
  · cases h
    exact ⟨s.keepsBytesBut_digits _ _ _, s.keepsAllBut_setMem _⟩
  · cases h
    obtain ⟨m, hm, -⟩ := s.storeRegs_eq x
    exact ⟨s.keepsBytesBut_storeRegs x, hm ▸ s.keepsAllBut_setMem m⟩

end Sys2Proof.Machine

namespace Sys2Proof.Machine

/-! ### What a step does in each place (spec/40_cycle.md R100 to R112), the converse of `step_cases` -/

theorem step_of_keyEvent {s t : State} (h : s.keyEvent = some t) : step s = .next t := by
  simp [step, cycle, h]

theorem step_of_halted {s : State} (hkey : s.NoKeyDue) (h : s.halted.isSome = true) :
    step s = .next s.leaveTick := by
  have hevent : s.keyEvent = none := hkey
  simp [step, cycle, hevent, h]

theorem step_of_slot {s : State} (hkey : s.NoKeyDue) (hrun : s.halted = none) (hslot : s.slot < s.cfg.ipt) :
    step s = runSlot s := by
  have hevent : s.keyEvent = none := hkey
  simp [step, cycle, hevent, hrun, hslot]

theorem step_of_tickEnd {s : State} (hkey : s.NoKeyDue) (hrun : s.halted = none) (hslot : s.cfg.ipt ≤ s.slot) :
    step s = .next s.endTick := by
  have hevent : s.keyEvent = none := hkey
  simp [step, cycle, hevent, hrun, not_lt.2 hslot]

theorem runSlot_of_paused {s : State} (h : s.paused = true) : runSlot s = .next (s.setSlot (s.slot + 1)) := by
  simp [runSlot, h]

theorem runSlot_of_next {s t : State} (hp : s.paused = false) (h : runInstruction s = .next t) :
    runSlot s = .next t.closeSlot := by
  simp [runSlot, hp, h]

theorem runSlot_of_fault {s : State} {r : Fault} (hp : s.paused = false) (h : runInstruction s = .fault r) :
    runSlot s = .fault r := by
  simp [runSlot, hp, h]

theorem runInstruction_of_instr {s : State} {i : Instr} (h : decodeWord s.fetchWord = .instr i) :
    runInstruction s = exec i s.advancePc := by
  simp [runInstruction, h]

theorem runInstruction_of_unknown {s : State} (h : decodeWord s.fetchWord = .unknownOpcode s.fetchWord) :
    runInstruction s = .next (s.advancePc.raiseFault .unknownOpcode s.fetchWord) := by
  simp [runInstruction, h]

/-- In a slot that runs, what the instruction answers decides the step: a next state closes the slot. -/
theorem step_of_runInstruction {s t : State} (hs : s.RunsSlot) (h : runInstruction s = .next t) :
    step s = .next t.closeSlot := by
  obtain ⟨hkey, hrun, hpaused, hslot⟩ := hs
  rw [step_of_slot hkey hrun hslot, runSlot_of_next hpaused h]

/-- And a fault is a fault of the step. -/
theorem step_of_runInstruction_fault {s : State} {r : Fault} (hs : s.RunsSlot) (h : runInstruction s = .fault r) :
    step s = .fault r := by
  obtain ⟨hkey, hrun, hpaused, hslot⟩ := hs
  rw [step_of_slot hkey hrun hslot, runSlot_of_fault hpaused h]

/-- No instruction is refused: each of the 34 has its meaning. -/
theorem exec_ne_refused (i : Instr) (s : State) (r : Refusal) : exec i s ≠ .refused r := by
  cases i with
  | ret => simp only [exec, execRet]; split <;> exact nofun
  | call nnn => simp only [exec, execCall]; split <;> exact nofun
  | drw x y n => simp only [exec, execDrw]; split <;> exact nofun
  | _ => exact nofun

/-- The fetched word, both addresses reduced (R102). -/
theorem State.fetchWord_eq (s : State) :
    s.fetchWord = wordOfBytes (s.memRead s.pc.toNat) (s.memRead ((s.pc.toNat + 1) % 4096)) := by
  rw [State.memRead_mod, State.fetchWord]

/-- Settles O5: the step is `runInstruction` closed by the slot's end. -/
theorem stepRunsTheDecodedInstruction : Obligations.StepRunsTheDecodedInstruction := by
  intro s i hs hword
  rw [← s.fetchWord_eq] at hword
  have hinstr : runInstruction s = exec i (s.setPc (s.pc + 2)) := runInstruction_of_instr hword
  refine ⟨s.toNat_pc_advancePc, fun t ht hrun => ?_, fun t f ht hhalt => ?_, fun r hr => ?_, exec_ne_refused i _⟩
  · rw [step_of_runInstruction hs (hinstr.trans ht), State.closeSlot_running hrun]
  · rw [step_of_runInstruction hs (hinstr.trans ht), State.closeSlot_halted hhalt]
  · exact step_of_runInstruction_fault hs (hinstr.trans hr)

/-- The host's leading `tick` is done when a tick is left (log entry 11). -/
theorem State.leaveTick_host_tick {s : State} {rest : List HostAction} (h : s.host = .tick :: rest) :
    s.leaveTick.host = rest := by
  simp [State.leaveTick, h]

theorem State.leaveTick_host_other {s : State} (h : ∀ rest, s.host ≠ .tick :: rest) :
    s.leaveTick.host = s.host := by
  rw [State.leaveTick, State.setHost_host]
  split
  · next rest hhost => exact absurd hhost (h rest)
  · rfl

/-- Settles O6: leaving a tick sets the position and the list, and takes a leading `tick` off the list. -/
theorem leavingATickMovesOnlyThePosition : Obligations.LeavingATickMovesOnlyThePosition :=
  fun s => ⟨s.leaveTick_slot, fun _ => State.leaveTick_host_tick, State.leaveTick_host_other,
    s.keepsAllBut_leaveTick⟩

/-- Settles O7: the fault is raised after the advance, so it records the fetch address, and closing a halted
slot leaves the tick. -/
theorem unknownWordHaltsTheMachine : Obligations.UnknownWordHaltsTheMachine := by
  intro s hs hword
  have hhalt := s.raiseFault_advancePc_halted .unknownOpcode s.fetchWord
  refine ⟨(s.advancePc.raiseFault .unknownOpcode s.fetchWord).leaveTick, ?_, ?_, ?_, ?_, ?_⟩
  · rw [step_of_runInstruction hs (runInstruction_of_unknown hword), State.closeSlot_halted hhalt]
  · rw [State.leaveTick_halted, hhalt]
  · exact s.toNat_pc_advancePc
  · exact State.leaveTick_slot _
  · exact (s.keepsAllBut_setPc _).trans <| (State.keepsAllBut_raiseFault _ _ _).trans <|
      State.keepsAllBut_leaveTick _

/-- Settles O9: a paused slot is one write of the position. -/
theorem pausedSlotFetchesNothing : Obligations.PausedSlotFetchesNothing :=
  fun s hkey hrun hpaused hslot => ⟨_, (step_of_slot hkey hrun hslot).trans (runSlot_of_paused hpaused),
    s.setSlot_slot _, s.keepsAllBut_setSlot _⟩

/-- The tone is on exactly when the decremented ST is positive (R110). -/
theorem State.endTick_tone_iff (s : State) : s.endTick.tone = true ↔ 1 < s.st.toNat := by
  have hzero : countDown s.st = 0 ↔ (countDown s.st).toNat = 0 := BitVec.toNat_inj.symm
  rw [State.endTick_tone, decide_eq_true_iff, ne_eq, hzero, toNat_countDown]
  omega

/-- Settles O10: the step is `endTick`, whose fields are read off one by one. -/
theorem tickEndCountsDownAndSetsTheTone : Obligations.TickEndCountsDownAndSetsTheTone := by
  refine fun s hkey hrun hslot => ⟨_, step_of_tickEnd hkey hrun hslot, ?_, ?_, s.endTick_tone_iff, s.endTick_slot,
    s.keepsAllBut_endTick⟩
  · rw [State.endTick_dt, toNat_countDown]
  · rw [State.endTick_st, toNat_countDown]

/-! ### Key events (spec/45_devices.md R205; spec/60_exceptions.md R240) -/

theorem State.keyEvent_keyDown {s : State} {k : Key} {rest : List HostAction} (hslot : s.slot = 0)
    (hhost : s.host = .keyDown k :: rest) : s.keyEvent = some ((s.setHost rest).keyDown k) := by
  simp [State.keyEvent, hslot, hhost]

theorem State.keyEvent_keyUp {s : State} {k : Key} {rest : List HostAction} (hslot : s.slot = 0)
    (hhost : s.host = .keyUp k :: rest) : s.keyEvent = some ((s.setHost rest).keyUp k) := by
  simp [State.keyEvent, hslot, hhost]

/-- A key-down while not paused only sets the key (R205). -/
theorem State.keyDown_of_not_paused {s : State} (k : Key) (h : s.paused = false) :
    s.keyDown k = s.setKeys (s.keys.set k true) := by
  simp [State.keyDown, h]

/-- A key-down while paused writes the key code to the waiting register and ends the wait (R205). -/
theorem State.keyDown_of_waiting {s : State} (k : Key) {x : Reg} (h : s.paused = true) (hx : s.waitReg = some x) :
    s.keyDown k = ((s.setKeys (s.keys.set k true)).setReg x (keyCode k)).setWait none := by
  simp [State.keyDown, h, hx]

/-- Whatever else a key-down does, the keys it leaves are those with k set. -/
theorem State.keyDown_keys (s : State) (k : Key) : (s.keyDown k).keys = s.keys.set k true := by
  rcases s.keyDown_cases k with ⟨-, h⟩ | ⟨-, x, -, h⟩ | ⟨-, -, h⟩ <;> rw [h] <;> rfl

theorem State.keyDown_host (s : State) (k : Key) : (s.keyDown k).host = s.host := by
  rcases s.keyDown_cases k with ⟨-, h⟩ | ⟨-, x, -, h⟩ | ⟨-, -, h⟩ <;> rw [h] <;> rfl

theorem State.isPressed_keyDown (s : State) (k j : Key) :
    (s.keyDown k).isPressed j = if j = k then true else s.isPressed j := by
  rw [← s.isPressed_setKeys k j true, State.isPressed, State.keyDown_keys]
  rfl

theorem State.isPressed_keyUp (s : State) (k j : Key) :
    (s.keyUp k).isPressed j = if j = k then false else s.isPressed j :=
  s.isPressed_setKeys k j false

/-- A key code fits a byte. -/
theorem toNat_keyCode (k : Key) : (keyCode k).toNat = k.val := by
  have := k.isLt
  rw [keyCode, BitVec.toNat_ofNat]
  omega

/-- The key is set first, so the rest of a completed wait reads as it did before the event. -/
theorem State.keepsAllBut_keyDown (s : State) (k : Key) : KeepsAllBut [.keys, .regs, .wait] s (s.keyDown k) := by
  have hkeys := s.keepsAllBut_setKeys (s.keys.set k true)
  rcases s.keyDown_cases k with ⟨-, h⟩ | ⟨-, x, -, h⟩ | ⟨-, -, h⟩ <;> rw [h]
  · exact hkeys.mono (by simp)
  · exact hkeys.trans ((State.keepsAllBut_setReg _ x _).trans (State.keepsAllBut_setWait _ none))
  · exact (hkeys.trans (State.keepsAllBut_setWait _ none)).mono (by simp)

/-- Settles O11: the event writes the host's list and the keys first; a pending wait then writes its register and ends. -/
theorem keyDownSetsTheKeyAndEndsAWait : Obligations.KeyDownSetsTheKeyAndEndsAWait := by
  intro s k rest hslot hhost
  have hhostKept := s.keepsAllBut_setHost rest
  refine ⟨_, step_of_keyEvent (State.keyEvent_keyDown hslot hhost), ?_, ?_, fun j hj => ?_, fun hpaused => ?_,
    fun x hpaused hx => ?_⟩
  · rw [State.keyDown_host, State.setHost_host]
  · rw [State.isPressed_keyDown, if_pos rfl]
  · rw [State.isPressed_keyDown, if_neg hj]
    rfl
  · rw [State.keyDown_of_not_paused (s := s.setHost rest) k hpaused]
    exact (hhostKept.trans (State.keepsAllBut_setKeys _ _)).mono (by simp)
  · have hframe := (hhostKept.trans ((s.setHost rest).keepsAllBut_keyDown k)).mono
      (b := [.regs, .wait, .keys, .host]) (by simp)
    rw [State.keyDown_of_waiting (s := s.setHost rest) k hpaused hx] at hframe ⊢
    refine ⟨?_, ?_, rfl, rfl, hframe⟩
    · rw [State.reg_setWait, State.reg_setReg_same, toNat_keyCode]
    · exact State.keepsRegsBut_setReg ((s.setHost rest).setKeys _) x _

/-- Settles O12: the event writes the host's list and the keys, and no wait. -/
theorem keyUpClearsOnlyTheKey : Obligations.KeyUpClearsOnlyTheKey := by
  intro s k rest hslot hhost
  refine ⟨_, step_of_keyEvent (State.keyEvent_keyUp hslot hhost), rfl, ?_, fun j hj => ?_, ?_⟩
  · rw [State.isPressed_keyUp, if_pos rfl]
  · rw [State.isPressed_keyUp, if_neg hj]
    rfl
  · exact ((s.keepsAllBut_setHost rest).trans (State.keepsAllBut_setKeys _ _)).mono (by simp)

/-- A key event changes the keys, the host's list and, when it ends a wait, a register. -/
theorem State.keepsAllBut_keyEvent {s t : State} (h : s.keyEvent = some t) :
    KeepsAllBut [.host, .keys, .regs, .wait] s t := by
  obtain ⟨-, ⟨k, rest, -, rfl⟩ | ⟨k, rest, -, rfl⟩⟩ := State.keyEvent_cases h
  · exact (s.keepsAllBut_setHost rest).trans (State.keepsAllBut_keyDown _ k)
  · exact ((s.keepsAllBut_setHost rest).trans (State.keepsAllBut_setKeys _ _)).mono (by simp)

/-- Settles O8: a halted machine runs no slot and ends no tick with its decrement. -/
theorem haltIsPermanent : Obligations.HaltIsPermanent := by
  refine ⟨fun s hkey hhalt => ⟨_, step_of_halted hkey hhalt, s.keepsAllBut_leaveTick⟩, fun s t f hhalt hstep => ?_⟩
  rcases step_cases hstep with hkey | ⟨-, -, rfl⟩ | ⟨-, hrun, -⟩ | ⟨⟨-, hrun, -⟩, -⟩ | ⟨⟨-, hrun, -⟩, -⟩ |
    ⟨-, hrun, -⟩
  · have hkept : t.halted = s.halted := State.keepsAllBut_keyEvent hkey .halted (by simp)
    exact hkept.trans hhalt
  · exact hhalt
  all_goals rw [hrun] at hhalt; cases hhalt

/-! ### What a step can change (spec/44_timers.md R193; spec/10_state.md R27; spec/20_memory.md R58) -/

/-- What a step keeps, and what changes the timers, the stack and memory. -/
structure StepKeeps (s t : State) : Prop where
  cfg : t.cfg = s.cfg
  keys : s.NoKeyDue → t.keys = s.keys
  dt : t.dt = s.dt ∨ (∃ x, decodeWord s.fetchWord = .instr (.ldDtVx x) ∧ t.dt = s.reg x) ∨
    (s.cfg.ipt ≤ s.slot ∧ t.dt = countDown s.dt)
  st : t.st = s.st ∨ (∃ x, decodeWord s.fetchWord = .instr (.ldStVx x) ∧ t.st = s.reg x) ∨
    (s.cfg.ipt ≤ s.slot ∧ t.st = countDown s.st)
  stack : t.stack = s.stack ∨ (∃ nnn, decodeWord s.fetchWord = .instr (.call nnn)) ∨
    decodeWord s.fetchWord = .instr .ret
  mem : (∀ a, t.memRead a = s.memRead a) ∨ ∃ x, decodeWord s.fetchWord = .instr (.ldBVx x) ∨
    decodeWord s.fetchWord = .instr (.ldMiVx x)

/-- A step that writes none of the timers, the stack, memory and the configuration. -/
theorem stepKeeps_of_frame {s t : State}
    (h : KeepsAllBut [.regs, .pc, .wait, .halted, .keys, .slot, .host] s t)
    (hkeys : s.NoKeyDue → t.keys = s.keys) : StepKeeps s t :=
  ⟨h .cfg (by simp), hkeys, .inl (h .dt (by simp)), .inl (h .st (by simp)), .inl (h .stack (by simp)),
    .inl (h .mem (by simp))⟩

/-- A slot that runs an instruction changes what the instruction changes. -/
theorem stepKeeps_of_exec {s u : State} {i : Instr} (hword : decodeWord s.fetchWord = .instr i)
    (h : exec i s.advancePc = .next u) : StepKeeps s u.closeSlot := by
  have hkeeps := exec_keeps h
  have hclose := u.keepsAllBut_closeSlot
  have hdt : u.closeSlot.dt = u.dt := hclose .dt (by simp)
  have hst : u.closeSlot.st = u.st := hclose .st (by simp)
  have hstack : u.closeSlot.stack = u.stack := hclose .stack (by simp)
  have hcfg : u.closeSlot.cfg = u.cfg := hclose .cfg (by simp)
  have hkeys : u.closeSlot.keys = u.keys := hclose .keys (by simp)
  have hmem : ∀ a, u.closeSlot.memRead a = u.memRead a := hclose .mem (by simp)
  refine ⟨hcfg.trans hkeeps.cfg, fun _ => hkeys.trans hkeeps.keys, ?_, ?_, ?_, ?_⟩
  · rw [hdt]
    exact hkeeps.dt.imp_right fun ⟨x, hi, hx⟩ => .inl ⟨x, hi ▸ hword, hx⟩
  · rw [hst]
    exact hkeeps.st.imp_right fun ⟨x, hi, hx⟩ => .inl ⟨x, hi ▸ hword, hx⟩
  · rw [hstack]
    rcases hkeeps.stack with hsame | ⟨nnn, rfl⟩ | rfl
    · exact .inl hsame
    · exact .inr (.inl ⟨nnn, hword⟩)
    · exact .inr (.inr hword)
  · rcases hkeeps.mem with hsame | ⟨x, rfl | rfl⟩
    · exact .inl fun a => (hmem a).trans (State.memRead_congr (s := s) hsame hkeeps.cfg a)
    · exact .inr ⟨x, .inl hword⟩
    · exact .inr ⟨x, .inr hword⟩

/-- The end of a tick counts both timers down and writes neither stack nor memory. -/
theorem stepKeeps_of_tickEnd {s : State} (h : s.cfg.ipt ≤ s.slot) : StepKeeps s s.endTick :=
  ⟨s.endTick_cfg, fun _ => s.endTick_keys, .inr (.inr ⟨h, s.endTick_dt⟩), .inr (.inr ⟨h, s.endTick_st⟩),
    .inl s.endTick_stack, .inl s.memRead_endTick⟩

/-- ALL THAT A STEP CAN CHANGE of the timers, the stack, memory, the keys and the configuration. -/
theorem step_keeps {s t : State} (h : step s = .next t) : StepKeeps s t := by
  rcases step_cases h with hkey | ⟨-, -, rfl⟩ | ⟨-, -, -, -, rfl⟩ | ⟨-, i, u, hword, hexec, rfl⟩ | ⟨-, -, rfl⟩ |
    ⟨-, -, hslot, rfl⟩
  · refine stepKeeps_of_frame ((State.keepsAllBut_keyEvent hkey).mono (by simp)) fun hnone => ?_
    rw [State.NoKeyDue, hkey] at hnone
    cases hnone
  · exact stepKeeps_of_frame (s.keepsAllBut_leaveTick.mono (by simp)) fun _ => rfl
  · exact stepKeeps_of_frame ((s.keepsAllBut_setSlot _).mono (by simp)) fun _ => rfl
  · exact stepKeeps_of_exec hword hexec
  · exact stepKeeps_of_frame (((s.keepsAllBut_setPc _).trans ((State.keepsAllBut_raiseFault _ _ _).trans
      (State.keepsAllBut_closeSlot _))).mono (by simp)) fun _ => rfl
  · exact stepKeeps_of_tickEnd hslot

/-- A timer that counting down changes was positive. -/
theorem toNat_countDown_of_ne {b : Byte} (h : countDown b ≠ b) : (countDown b).toNat + 1 = b.toNat := by
  have hne : (countDown b).toNat ≠ b.toNat := fun heq => h (BitVec.eq_of_toNat_eq heq)
  rw [toNat_countDown] at hne ⊢
  omega

/-- Settles O55: of the three ways a timer can change, the tick's count makes it one less. -/
theorem timersChangeOnlyByTheirInstructionsAndTheTick :
    Obligations.TimersChangeOnlyByTheirInstructionsAndTheTick := by
  intro s t hstep
  have hkeeps := step_keeps hstep
  constructor
  · intro hne
    refine (hkeeps.dt.resolve_left hne).imp_right fun ⟨hslot, hdt⟩ => ⟨hslot, ?_⟩
    rw [hdt] at hne ⊢
    exact toNat_countDown_of_ne hne
  · intro hne
    refine (hkeeps.st.resolve_left hne).imp_right fun ⟨hslot, hst⟩ => ⟨hslot, ?_⟩
    rw [hst] at hne ⊢
    exact toNat_countDown_of_ne hne

/-- Settles O56: both are read off what a step keeps. -/
theorem stackAndMemoryChangeOnlyByTheirInstructions : Obligations.StackAndMemoryChangeOnlyByTheirInstructions :=
  fun _ _ hstep => ⟨(step_keeps hstep).stack.resolve_left,
    fun a hne => (step_keeps hstep).mem.resolve_left fun hsame => hne (hsame a)⟩

/-- Settles O57: inside a tick no key event is due. -/
theorem keysAndConfigurationAreConstantInATick : Obligations.KeysAndConfigurationAreConstantInATick :=
  fun _ _ hstep => ⟨(step_keeps hstep).keys, fun hslot => (step_keeps hstep).keys (State.noKeyDue_of_slot hslot),
    (step_keeps hstep).cfg⟩

/-- Settles O54: only a key-down writes the wait of a paused machine, and no slot of it runs. -/
theorem onlyAKeyDownEndsTheWait : Obligations.OnlyAKeyDownEndsTheWait := by
  intro s t hpaused hstep
  have hwaits : KeepsAllBut [.dt, .st, .tone, .slot, .host, .keys] s t →
      t.paused = true ∧ t.waitReg = s.waitReg ∧ t.pc = s.pc ∧ t.i = s.i ∧ t.stack = s.stack ∧
        (∀ r, t.reg r = s.reg r) ∧ (∀ a, t.memRead a = s.memRead a) := by
    intro h
    obtain ⟨hp, hw⟩ := h .wait (by simp)
    exact ⟨hp.trans hpaused, hw, h .pc (by simp), h .index (by simp), h .stack (by simp), h .regs (by simp),
      h .mem (by simp)⟩
  rcases step_cases hstep with hkey | ⟨-, -, rfl⟩ | ⟨-, -, -, -, rfl⟩ | ⟨⟨-, -, hnot, -⟩, -⟩ | ⟨⟨-, -, hnot, -⟩, -⟩ |
    ⟨-, -, -, rfl⟩
  · obtain ⟨hslot, ⟨k, rest, hhost, -⟩ | ⟨k, rest, -, rfl⟩⟩ := State.keyEvent_cases hkey
    · exact .inl ⟨k, rest, hslot, hhost⟩
    · exact .inr (hwaits (((s.keepsAllBut_setHost rest).trans (State.keepsAllBut_setKeys _ _)).mono (by simp)))
  · exact .inr (hwaits (s.keepsAllBut_leaveTick.mono (by simp)))
  · exact .inr (hwaits ((s.keepsAllBut_setSlot _).mono (by simp)))
  · rw [hpaused] at hnot; cases hnot
  · rw [hpaused] at hnot; cases hnot
  · exact .inr (hwaits (s.keepsAllBut_endTick.mono (by simp)))

end Sys2Proof.Machine

namespace Sys2Proof.Machine

/-! ### Every step and every schedule answers a state (spec/60_exceptions.md R243, R245) -/

theorem runSlot_total {s : State} (h : s.cfg.wf = true) : ∃ t, runSlot s = .next t := by
  cases hp : s.paused with
  | true => exact ⟨_, runSlot_of_paused hp⟩
  | false =>
    obtain ⟨t, ht, -⟩ := runInstruction_total h
    exact ⟨_, runSlot_of_next hp ht⟩

/-- On a configuration with a pixel every step answers a next state. -/
theorem step_total {s : State} (h : s.cfg.wf = true) : ∃ t, step s = .next t := by
  cases hkey : s.keyEvent with
  | some t => exact ⟨t, step_of_keyEvent hkey⟩
  | none =>
    cases hhalt : s.halted with
    | some f => exact ⟨_, step_of_halted hkey (by simp [hhalt])⟩
    | none =>
      rcases lt_or_ge s.slot s.cfg.ipt with hslot | hslot
      · rw [step_of_slot hkey hhalt hslot]
        exact runSlot_total h
      · exact ⟨_, step_of_tickEnd hkey hhalt hslot⟩

section
variable {s : State} (n : Nat)

@[simp] theorem tickSlots_zero : tickSlots 0 s = .next s := rfl

theorem tickSlots_of_halted (h : s.halted.isSome = true) : tickSlots n s = .next s := by
  cases n with
  | zero => rfl
  | succ n => simp [tickSlots, h]

theorem tickSlots_of_paused (hrun : s.halted = none) (h : s.paused = true) :
    tickSlots (n + 1) s = tickSlots n (s.setSlot (s.slot + 1)) := by
  simp [tickSlots, hrun, h]

theorem tickSlots_of_next {t : State} (hrun : s.halted = none) (hp : s.paused = false)
    (h : runInstruction s = .next t) : tickSlots (n + 1) s = tickSlots n (t.setSlot (t.slot + 1)) := by
  simp [tickSlots, hrun, hp, h]

theorem tickSlots_of_fault {r : Fault} (hrun : s.halted = none) (hp : s.paused = false)
    (h : runInstruction s = .fault r) : tickSlots (n + 1) s = .fault r := by
  simp [tickSlots, hrun, hp, h]

end

/-- On a configuration with a pixel the slots of a tick answer a next state, of the same configuration. -/
theorem tickSlots_total (n : Nat) {s : State} (h : s.cfg.wf = true) :
    ∃ t, tickSlots n s = .next t ∧ t.cfg = s.cfg := by
  induction n generalizing s with
  | zero => exact ⟨s, rfl, rfl⟩
  | succ n ih =>
    cases hhalt : s.halted with
    | some f => exact ⟨s, tickSlots_of_halted _ (by simp [hhalt]), rfl⟩
    | none =>
      cases hp : s.paused with
      | true =>
        obtain ⟨t, ht, hcfg⟩ := ih (s := s.setSlot (s.slot + 1)) h
        exact ⟨t, (tickSlots_of_paused n hhalt hp).trans ht, hcfg⟩
      | false =>
        obtain ⟨u, hu, hucfg⟩ := runInstruction_total h
        obtain ⟨t, ht, hcfg⟩ := ih (s := u.setSlot (u.slot + 1)) (hucfg ▸ h)
        exact ⟨t, (tickSlots_of_next n hhalt hp hu).trans ht, hcfg.trans hucfg⟩

/-- The end of a tick after its slots: nothing more is done when a fault halted the machine (R112). -/
def State.finishTick (s : State) : State := if s.halted.isSome then s.leaveTick else s.endTick

theorem State.finishTick_cfg (s : State) : s.finishTick.cfg = s.cfg := by
  unfold State.finishTick
  split <;> simp

theorem State.finishTick_of_halted {s : State} (h : s.halted.isSome = true) : s.finishTick = s.leaveTick := if_pos h

theorem State.finishTick_of_running {s : State} (h : s.halted = none) : s.finishTick = s.endTick :=
  if_neg (by simp [h])

/-- A tick is its slots and then its end (R106). -/
theorem tick_eq (s : State) : tick s = mapNext State.finishTick (tickSlots s.cfg.ipt s) := by
  unfold tick
  cases tickSlots s.cfg.ipt s <;> rfl

theorem tick_total {s : State} (h : s.cfg.wf = true) : ∃ t, tick s = .next t ∧ t.cfg = s.cfg := by
  obtain ⟨t, ht, hcfg⟩ := tickSlots_total s.cfg.ipt h
  exact ⟨t.finishTick, by rw [tick_eq, ht]; rfl, t.finishTick_cfg.trans hcfg⟩

/-- One action of the host on a configuration with a pixel. -/
theorem hostAct_total {s : State} (h : s.cfg.wf = true) : ∃ t, hostAct s = .next t ∧ t.cfg = s.cfg := by
  rcases hostAct_cases s with ⟨t, -, hact, hstep⟩ | ⟨-, hact⟩
  · exact ⟨t, hact, (step_keeps hstep).cfg⟩
  · rw [hact]
    exact tick_total h

theorem runHost_total (n : Nat) {s : State} (h : s.cfg.wf = true) : ∃ t, runHost n s = .next t := by
  induction n generalizing s with
  | zero => exact ⟨s, rfl⟩
  | succ n ih =>
    obtain ⟨u, hu, hcfg⟩ := hostAct_total h
    rw [runHost_succ n hu]
    exact ih (hcfg ▸ h)

/-- Settles O53: the one fault is that of a display without a pixel, which the invariant and the boot exclude. -/
theorem stepAlwaysAnswersANextState : Obligations.StepAlwaysAnswersANextState := by
  refine ⟨fun s ⟨hcfg, _⟩ => step_total hcfg, fun c image schedule hcfg himage => ?_⟩
  obtain ⟨m, hboot, -⟩ := boot_eq c himage schedule
  obtain ⟨t, ht⟩ := runHost_total schedule.length (s := ((State.powerOn c).setHost schedule).setMem m) hcfg
  exact ⟨t, by simpa only [runSchedule, hboot] using ht⟩

/-! ### Runs of the machine, one step at a time -/

theorem run_succ_of_next {s u : State} (n : Nat) (h : step s = .next u) :
    Host.Core.run Sys2Proof.core (n + 1) s = Host.Core.run Sys2Proof.core n u := by
  have hcore : Sys2Proof.core.step s = .next u := h
  simp [Host.Core.run, hcore]

theorem run_succ_of_fault {s : State} {r : Fault} (n : Nat) (h : step s = .fault r) :
    Host.Core.run Sys2Proof.core (n + 1) s = .fault r := by
  have hcore : Sys2Proof.core.step s = .fault r := h
  simp [Host.Core.run, hcore]

theorem run_succ_of_refused {s : State} {r : Refusal} (n : Nat) (h : step s = .refused r) :
    Host.Core.run Sys2Proof.core (n + 1) s = .refused r := by
  have hcore : Sys2Proof.core.step s = .refused r := h
  simp [Host.Core.run, hcore]

theorem run_one (s : State) : Host.Core.run Sys2Proof.core 1 s = step s := by
  cases h : step s with
  | next u => exact run_succ_of_next 0 h
  | fault r => exact run_succ_of_fault 0 h
  | refused r => exact run_succ_of_refused 0 h

/-- A run that answers a state answered one at its first step. -/
theorem run_succ_cases {s t : State} {n : Nat} (h : Host.Core.run Sys2Proof.core (n + 1) s = .next t) :
    ∃ u : State, step s = .next u ∧ Host.Core.run Sys2Proof.core n u = .next t := by
  cases hstep : step s with
  | next u => exact ⟨u, rfl, (run_succ_of_next n hstep).symm.trans h⟩
  | fault r => cases (run_succ_of_fault n hstep).symm.trans h
  | refused r => cases (run_succ_of_refused n hstep).symm.trans h

/-! ### The self-jump (spec/60_exceptions.md R245) -/

/-- The word of a self-jump is the encoding of a jump to PC. -/
theorem selfJumpWord_eq (pc : Addr) : 0x1000#16 ||| pc.zeroExtend 16 = encode (.jp pc) := by
  apply BitVec.eq_of_toNat_eq
  have hlow : pc.toNat < 2 ^ 12 := pc.isLt
  rw [encode, toNat_packNNN, BitVec.toNat_or, BitVec.toNat_setWidth_of_le (by decide)]
  exact (Nat.two_pow_add_eq_or_of_lt hlow 1).symm

theorem State.AtSelfJump.decodeWord_eq {s : State} (h : s.AtSelfJump) :
    decodeWord s.fetchWord = .instr (.jp s.pc) := by
  obtain ⟨-, -, hword⟩ := h
  rw [hword, selfJumpWord_eq, decodeWord_encode rfl]

/-- Being at a self-jump rests on the halt, the wait, PC and memory alone. -/
theorem State.AtSelfJump.of_frame {s t : State} (h : s.AtSelfJump)
    (hframe : KeepsAllBut [.dt, .st, .tone, .slot, .host, .keys] s t) : t.AtSelfJump := by
  obtain ⟨hrun, hpaused, hword⟩ := h
  have hhalt : t.halted = s.halted := hframe .halted (by simp)
  have hpc : t.pc = s.pc := hframe .pc (by simp)
  have hmem : ∀ a, t.memRead a = s.memRead a := hframe .mem (by simp)
  have hwait : t.paused = s.paused := (hframe .wait (by simp)).1
  refine ⟨hhalt.trans hrun, hwait.trans hpaused, ?_⟩
  rw [hpc, ← hword]
  simp only [State.fetchWord, hpc, hmem]

/-- A jump to the address it stands at leaves PC where it was before the advance. -/
theorem exec_jp_self (s : State) : exec (.jp s.pc) s.advancePc = .next s := rfl

/-- At a self-jump a step that is no key event moves the position, or ends the tick. -/
theorem State.AtSelfJump.step_frame {s t : State} (h : s.AtSelfJump) (hkey : s.NoKeyDue) (hstep : step s = .next t) :
    KeepsAllBut [.dt, .st, .tone, .slot, .host] s t := by
  have hinstr := (runInstruction_of_instr h.decodeWord_eq).trans (exec_jp_self s)
  obtain ⟨hrun, hpaused, -⟩ := h
  rcases lt_or_ge s.slot s.cfg.ipt with hslot | hslot
  · rw [step_of_runInstruction ⟨hkey, hrun, hpaused, hslot⟩ hinstr] at hstep
    cases hstep
    exact s.keepsAllBut_closeSlot.mono (by simp)
  · rw [step_of_tickEnd hkey hrun hslot] at hstep
    cases hstep
    exact s.keepsAllBut_endTick

/-- A key event while not paused changes the keys and the host's list alone. -/
theorem State.keepsAllBut_keyEvent_of_not_paused {s t : State} (hp : s.paused = false) (h : s.keyEvent = some t) :
    KeepsAllBut [.host, .keys] s t := by
  obtain ⟨-, ⟨k, rest, -, rfl⟩ | ⟨k, rest, -, rfl⟩⟩ := State.keyEvent_cases h
  · rw [State.keyDown_of_not_paused (s := s.setHost rest) k hp]
    exact (s.keepsAllBut_setHost rest).trans (State.keepsAllBut_setKeys _ _)
  · exact (s.keepsAllBut_setHost rest).trans (State.keepsAllBut_setKeys _ _)

theorem State.AtSelfJump.any_step_frame {s t : State} (h : s.AtSelfJump) (hstep : step s = .next t) :
    KeepsAllBut [.dt, .st, .tone, .slot, .host, .keys] s t := by
  cases hkey : s.keyEvent with
  | none => exact (h.step_frame hkey hstep).mono (by simp)
  | some u =>
    rw [step_of_keyEvent hkey] at hstep
    cases hstep
    obtain ⟨-, hpaused, -⟩ := h
    exact (State.keepsAllBut_keyEvent_of_not_paused hpaused hkey).mono (by simp)

/-- Every later state of a run from a self-jump is framed by it. -/
theorem State.AtSelfJump.run_frame (n : Nat) {s t : State} (h : s.AtSelfJump)
    (hrun : Host.Core.run Sys2Proof.core n s = .next t) :
    KeepsAllBut [.dt, .st, .tone, .slot, .host, .keys] s t := by
  induction n generalizing s with
  | zero => cases hrun; exact .refl _ _
  | succ n ih =>
    obtain ⟨u, hstep, hrest⟩ := run_succ_cases hrun
    have hfirst := h.any_step_frame hstep
    exact (hfirst.trans (ih (h.of_frame hfirst) hrest)).mono (by simp)

/-- Settles O59: the frame of a step at a self-jump keeps all that makes it one, so the next step is again one
from a self-jump. -/
theorem selfJumpStaysAtTheSelfJump : Obligations.SelfJumpStaysAtTheSelfJump := by
  refine ⟨fun s t h hkey hstep => ?_, fun start s ⟨_, _, h, _⟩ n t hrun => ?_⟩
  · have hframe := h.step_frame hkey hstep
    exact ⟨h.of_frame (hframe.mono (by simp)), hframe⟩
  · have hframe := h.run_frame n hrun
    exact ⟨h.of_frame hframe, hframe⟩

/-! ### The steps of a tick (spec/40_cycle.md R106) -/

/-- An instruction moves neither the position nor the configuration. -/
theorem runInstruction_keeps {s t : State} (h : runInstruction s = .next t) : t.slot = s.slot ∧ t.cfg = s.cfg := by
  rcases runInstruction_cases h with ⟨i, -, hexec⟩ | ⟨-, rfl⟩
  · exact ⟨(exec_keeps hexec).slot, (exec_keeps hexec).cfg⟩
  · exact ⟨rfl, rfl⟩

theorem runInstruction_ne_refused (s : State) (r : Refusal) : runInstruction s ≠ .refused r := by
  rcases decodeWord_cases s.fetchWord with ⟨i, hi⟩ | hi
  · rw [runInstruction_of_instr hi]
    exact exec_ne_refused i _ r
  · rw [runInstruction_of_unknown hi]
    exact nofun

/-- What is left of a tick, `n` slots and its end, as R106 has it. -/
def finishSlots (n : Nat) (s : State) : Result := mapNext State.finishTick (tickSlots n s)

theorem finishSlots_of_halted (n : Nat) {s : State} (h : s.halted.isSome = true) :
    finishSlots n s = .next s.leaveTick := by
  rw [finishSlots, tickSlots_of_halted n h, ← State.finishTick_of_halted h]
  rfl

theorem finishSlots_zero {s : State} (h : s.halted = none) : finishSlots 0 s = .next s.endTick := by
  rw [finishSlots, tickSlots_zero, ← State.finishTick_of_running h]
  rfl

/-- With `n` slots of the tick left, a step does all that is left of it, or counts one of the slots. -/
theorem step_of_slots_left {n : Nat} {s : State} (hslot : s.slot + n = s.cfg.ipt) (hkey : s.NoKeyDue) :
    step s = finishSlots n s ∨ ∃ m u, n = m + 1 ∧ step s = .next u ∧ u.slot = s.slot + 1 ∧ u.cfg = s.cfg ∧
      finishSlots n s = finishSlots m u := by
  cases hhalt : s.halted with
  | some f =>
    have hsome : s.halted.isSome = true := by simp [hhalt]
    exact .inl ((step_of_halted hkey hsome).trans (finishSlots_of_halted n hsome).symm)
  | none =>
    cases n with
    | zero => exact .inl ((step_of_tickEnd hkey hhalt (by omega)).trans (finishSlots_zero hhalt).symm)
    | succ n =>
      have hleft : s.slot < s.cfg.ipt := by omega
      cases hp : s.paused with
      | true =>
        refine .inr ⟨n, _, rfl, (step_of_slot hkey hhalt hleft).trans (runSlot_of_paused hp), rfl, rfl, ?_⟩
        rw [finishSlots, tickSlots_of_paused n hhalt hp, finishSlots]
      | false =>
        have hruns : s.RunsSlot := ⟨hkey, hhalt, hp, hleft⟩
        cases hinstr : runInstruction s with
        | refused r => exact absurd hinstr (runInstruction_ne_refused s r)
        | fault r =>
          left
          rw [step_of_runInstruction_fault hruns hinstr, finishSlots, tickSlots_of_fault n hhalt hp hinstr]
          rfl
        | next t =>
          obtain ⟨htslot, htcfg⟩ := runInstruction_keeps hinstr
          have hstep := step_of_runInstruction hruns hinstr
          have hfinish : finishSlots (n + 1) s = finishSlots n (t.setSlot (t.slot + 1)) := by
            rw [finishSlots, tickSlots_of_next n hhalt hp hinstr, finishSlots]
          cases hthalt : t.halted with
          | none =>
            rw [State.closeSlot_running hthalt] at hstep
            exact .inr ⟨n, _, rfl, hstep, congrArg (· + 1) htslot, htcfg, hfinish⟩
          | some f =>
            rw [State.closeSlot_halted hthalt] at hstep
            have hsome : (t.setSlot (t.slot + 1)).halted.isSome = true := by simp [hthalt]
            exact .inl (hstep.trans (hfinish.trans (finishSlots_of_halted n hsome)).symm)

/-- With `n` slots of the tick left, at most `n + 1` steps do what is left of it. -/
theorem run_finishes_tick (n : Nat) {s : State} (hslot : s.slot + n = s.cfg.ipt) (hkey : s.NoKeyDue) :
    ∃ k, 0 < k ∧ k ≤ n + 1 ∧ Host.Core.run Sys2Proof.core k s = finishSlots n s := by
  rcases step_of_slots_left hslot hkey with hlast | ⟨m, u, rfl, hstep, huslot, hucfg, hfinish⟩
  · exact ⟨1, one_pos, by omega, (run_one s).trans hlast⟩
  · have hu : u.slot + m = u.cfg.ipt := by rw [huslot, hucfg]; omega
    obtain ⟨k, -, hk, hrun⟩ := run_finishes_tick m hu (State.noKeyDue_of_slot (by omega))
    exact ⟨k + 1, k.succ_pos, by omega, (run_succ_of_next k hstep).trans (hrun.trans hfinish.symm)⟩
termination_by n

/-- Settles O60: between ticks all the slots of the tick are left. -/
theorem theStepsOfATickMakeUpTheTick : Obligations.TheStepsOfATickMakeUpTheTick := by
  intro s hslot hkey
  rw [tick_eq]
  exact run_finishes_tick s.cfg.ipt (by rw [hslot, Nat.zero_add]) hkey

end Sys2Proof.Machine

namespace Sys2Proof.Machine

/-! ### Control transfer (spec/41_control.md) -/

theorem exec_jp (s : State) (nnn : Addr) : exec (.jp nnn) s = .next (s.setPc nnn) := rfl

theorem exec_jpV0 (s : State) (nnn : Addr) : exec (.jpV0 nnn) s = .next (s.setPc (nnn + zext12 (s.reg 0))) := rfl

theorem exec_ret_of_nil {s : State} (h : s.stack = []) :
    exec .ret s = .next (s.raiseFault .emptyStackPop (encode .ret)) := by
  simp [exec, execRet, h]

theorem State.stackFull_of_le {s : State} {c : Nat} (hc : s.cfg.stackCapacity = some c) (h : c ≤ s.stack.length) :
    s.stackFull = true := by
  simp [State.stackFull, hc, h]

theorem exec_call_of_full {s : State} (nnn : Addr) (h : s.stackFull = true) :
    exec (.call nnn) s = .next (s.raiseFault .stackOverflow (encode (.call nnn))) := by
  simp [exec, execCall, h]

/-- Settles O14: JP is one write of PC. -/
theorem jpLoadsThePc : Obligations.JpLoadsThePc :=
  ⟨fun _ => decodeWord_op1, fun s nnn => ⟨_, exec_jp s nnn, s.setPc_pc nnn, s.setPc_stack nnn, s.reg_setPc nnn vf,
    s.setPc_halted nnn⟩⟩

/-- Settles O15: by whether the stack has an entry. -/
theorem retPopsOrRaisesEmptyStackPop : Obligations.RetPopsOrRaisesEmptyStackPop :=
  ⟨fun _ _ _ h => ⟨_, exec_ret_of_cons h, rfl, rfl, rfl⟩,
    fun s h => ⟨_, exec_ret_of_nil h, rfl, s.keepsAllBut_raiseFault _ _⟩⟩

/-- The word of a CALL as a number, as its fault records it (R225). -/
theorem toNat_encode_call (nnn : Addr) : (encode (.call nnn)).toNat = 0x2000 + nnn.toNat :=
  toNat_packNNN 0x2 nnn

/-- Settles O16: by whether the stack is full, as `stackFull` decides it. -/
theorem callPushesTheReturnAddress : Obligations.CallPushesTheReturnAddress :=
  ⟨fun _ nnn hroom => ⟨_, exec_call_of_room nnn hroom, rfl, rfl, rfl⟩,
    fun s nnn _ hc hfull => ⟨_, _, exec_call_of_full nnn (State.stackFull_of_le hc hfull), rfl, rfl,
      toNat_encode_call nnn, rfl, s.keepsAllBut_raiseFault _ _⟩⟩

/-- Settles O17: the return pops what the call pushed. -/
theorem callThenRetReturns : Obligations.CallThenRetReturns := by
  intro s u nnn t hroom hcall hstack
  rw [exec_call_of_room nnn hroom] at hcall
  cases hcall
  exact ⟨_, exec_ret_of_cons (a := s.pc) (rest := s.stack) hstack, rfl, rfl⟩

/-- PC after a skip, as a number (R120). -/
theorem State.toNat_pc_skipIf (s : State) (c : Bool) :
    (s.skipIf c).pc.toNat = if c = true then (s.pc.toNat + 2) % 4096 else s.pc.toNat := by
  rcases s.skipIf_cases c with ⟨rfl, h⟩ | ⟨rfl, h⟩ <;> rw [h]
  · exact s.toNat_pc_advancePc
  · rfl

/-- Settles O18: each comparison is a skip by its test. -/
theorem comparisonSkips : Obligations.ComparisonSkips := by
  refine fun s x y kk => ⟨⟨_, rfl, ?_⟩, ⟨_, rfl, ?_⟩, ⟨_, rfl, ?_⟩, ⟨_, rfl, ?_⟩⟩ <;>
    rw [State.toNat_pc_skipIf] <;> simp only [beq_iff_eq, bne_iff_ne, ite_not]

/-- Settles O19: the sum of 12-bit values reduces modulo 4096, and V0 is widened without loss. -/
theorem jpV0AddsV0 : Obligations.JpV0AddsV0 :=
  fun s nnn => ⟨_, exec_jpV0 s nnn, by rw [State.setPc_pc, BitVec.toNat_add, toNat_zext12]⟩

/-- The query of Ex9E and ExA1 asks for a pressed key of that code; 16 or more is no key's (D14). -/
theorem State.keyQuery_iff (s : State) (b : Byte) :
    s.keyQuery b = true ↔ ∃ k : Key, k.val = b.toNat ∧ s.isPressed k = true := by
  unfold State.keyQuery
  split
  · next hlt => exact ⟨fun h => ⟨_, rfl, h⟩, fun ⟨k, hk, h⟩ => by
      rwa [show (⟨b.toNat, hlt⟩ : Key) = k from Fin.ext hk.symm]⟩
  · next hge => exact ⟨nofun, fun ⟨k, hk, _⟩ => absurd (hk ▸ k.isLt) hge⟩

/-- Settles O43: both are skips by the query. -/
theorem keySkips : Obligations.KeySkips := by
  intro s x
  rw [← s.keyQuery_iff (s.reg x)]
  refine ⟨⟨_, rfl, fun h => ?_, fun h => ?_⟩, ⟨_, rfl, fun h => ?_, fun h => ?_⟩⟩
  · rw [State.toNat_pc_skipIf, if_pos h]
  · rw [eq_false_of_ne_true h]; rfl
  · rw [h]; rfl
  · rw [State.toNat_pc_skipIf, if_pos (by simp [eq_false_of_ne_true h])]

/-- Settles O44: Fx0A is one write of the wait. -/
theorem ldVxKPauses : Obligations.LdVxKPauses :=
  fun s x => ⟨s.setWait (some x), rfl, rfl, rfl, s.reg_setWait _, rfl⟩

/-- Settles O37: each move is one setter. -/
theorem timerMoves : Obligations.TimerMoves :=
  fun s x => ⟨⟨_, rfl, s.reg_setReg_same x s.dt, s.keepsRegsBut_setReg x s.dt, rfl⟩,
    ⟨s.setDt (s.reg x), rfl, rfl, rfl⟩, ⟨s.setSt (s.reg x), rfl, rfl, rfl⟩⟩

/-- Settles O30: Fx1E is one write of I, a sum of 12-bit values. -/
theorem addIVxWraps : Obligations.AddIVxWraps :=
  fun s x => ⟨s.setI (s.i + zext12 (s.reg x)), rfl,
    by rw [State.setI_i, BitVec.toNat_add, toNat_zext12], s.reg_setI _ vf⟩

/-! ### Arithmetic, logic and shifts (spec/42_alu.md R145 to R154) -/

/-- Settles O23: each is one register write of the bitwise result. -/
theorem logicIsBitwiseAndKeepsVf : Obligations.LogicIsBitwiseAndKeepsVf := by
  refine fun s x y => ⟨⟨_, rfl, s.vf_setReg _, fun b => ?_⟩, ⟨_, rfl, s.vf_setReg _, fun b => ?_⟩,
    ⟨_, rfl, s.vf_setReg _, fun b => ?_⟩⟩ <;> rw [State.reg_setReg_same]
  · exact BitVec.getLsbD_or
  · exact BitVec.getLsbD_and
  · exact BitVec.getLsbD_xor

section
variable (s : State) (x : Reg) (b f : Byte)

/-- The flag is written last, so VF holds it whatever x is (R141, D5). -/
@[simp] theorem State.vf_setResultFlag : (s.setResultFlag x b f).reg vf = f := by
  rw [State.reg_setResultFlag, if_pos rfl]

theorem State.reg_setResultFlag_same (h : x ≠ vf) : (s.setResultFlag x b f).reg x = b := by
  rw [State.reg_setResultFlag, if_neg h, if_pos rfl]

end

theorem toNat_flagByte (p : Prop) [Decidable p] : (flagByte (decide p)).toNat = if p then 1 else 0 := by
  by_cases h : p <;> simp [flagByte, h]

/-- Settles O24: the flag is computed from the registers before either is written. -/
theorem addRegSumAndCarry : Obligations.AddRegSumAndCarry := by
  refine fun s x y => ⟨_, rfl, fun hx => ?_, ?_⟩
  · rw [State.reg_setResultFlag_same _ _ _ _ hx, BitVec.toNat_add]
  · rw [State.vf_setResultFlag, carryFlag, toNat_flagByte]

/-- The difference modulo 256, counted up from the subtrahend (R140). -/
theorem toNat_byte_sub (a b : Byte) : (a - b).toNat = (a.toNat + 256 - b.toNat) % 256 := by
  have := b.isLt
  rw [BitVec.toNat_sub]
  omega

/-- Settles O25: SUBN is SUB with its operands exchanged. -/
theorem subtractionsAndStrictFlag : Obligations.SubtractionsAndStrictFlag := by
  refine fun s x y => ⟨⟨_, rfl, fun hx => ?_, ?_⟩, ⟨_, rfl, fun hx => ?_, ?_⟩⟩
  · rw [State.reg_setResultFlag_same _ _ _ _ hx, toNat_byte_sub]
  · rw [State.vf_setResultFlag, greaterFlag, toNat_flagByte]
  · rw [State.reg_setResultFlag_same _ _ _ _ hx, toNat_byte_sub]
  · rw [State.vf_setResultFlag, greaterFlag, toNat_flagByte]

theorem toNat_shrFlag (a : Byte) : (shrFlag a).toNat = a.toNat % 2 := by
  rw [shrFlag, BitVec.toNat_and]
  exact Nat.and_one_is_mod _

/-- Settles O26: the meaning does not mention y. -/
theorem shrHalvesAndIgnoresY : Obligations.ShrHalvesAndIgnoresY := by
  refine fun s x y => ⟨_, rfl, fun hx => ?_, ?_, fun _ => rfl⟩
  · rw [State.reg_setResultFlag_same _ _ _ _ hx, BitVec.toNat_ushiftRight, Nat.shiftRight_eq_div_pow, pow_one]
  · rw [State.vf_setResultFlag, toNat_shrFlag]

/-- Bit 7 of a byte is set exactly from 128 on. -/
theorem and_0x80_ne_zero_iff (a : Byte) : a &&& 0x80 ≠ 0 ↔ 128 ≤ a.toNat := by
  have hbit : a.getLsbD 7 = decide (128 ≤ a.toNat) := BitVec.msb_eq_decide a
  rw [show (0x80 : Byte) = BitVec.twoPow 8 7 from rfl, BitVec.and_twoPow, hbit]
  by_cases h : 128 ≤ a.toNat <;> simp [h]

theorem shlFlag_of_lt {a : Byte} (h : a.toNat < 128) : shlFlag a = 0 :=
  if_neg fun hbit => absurd ((and_0x80_ne_zero_iff a).1 hbit) (not_le.2 h)

theorem shlFlag_of_le {a : Byte} (h : 128 ≤ a.toNat) : shlFlag a = Config.shlVfSet :=
  if_pos ((and_0x80_ne_zero_iff a).2 h)

/-- Settles O27: the meaning does not mention y, and of SHL_VF_SET only its two values are used. -/
theorem shlDoublesAndIgnoresY : Obligations.ShlDoublesAndIgnoresY := by
  refine fun s x y => ⟨_, rfl, fun hx => ?_, fun hlt => ?_, fun hle => ?_, fun _ => rfl⟩
  · rw [State.reg_setResultFlag_same _ _ _ _ hx, BitVec.toNat_shiftLeft, Nat.shiftLeft_eq, pow_one, Nat.mul_comm]
  · rw [State.vf_setResultFlag, shlFlag_of_lt hlt]
  · rw [State.vf_setResultFlag, shlFlag_of_le hle]
    exact ⟨rfl, shlVfSet_cases⟩

/-- RND is one register write of the masked draw, in the state that has drawn it. -/
theorem exec_rnd (s : State) (x : Reg) (kk : Byte) :
    exec (.rnd x kk) s = .next ((s.setDraws (s.draws + 1)).setReg x (Config.drawByte s.draws &&& kk)) := rfl

/-- Settles O28: nothing is used of the draw. -/
theorem rndMasksAFreeByte : Obligations.RndMasksAFreeByte := by
  refine fun s x kk => ⟨_, exec_rnd s x kk, State.reg_setReg_same _ _ _, ?_, fun hkk => ?_, rfl⟩ <;>
    rw [State.reg_setReg_same]
  · rw [BitVec.and_assoc, BitVec.and_not_self]
    exact BitVec.and_zero
  · rw [hkk]
    exact BitVec.and_zero

end Sys2Proof.Machine

namespace Sys2Proof.Machine

/-! ### Block transfers and digits (spec/43_index_memory.md R173 to R177) -/

theorem exec_ldMiVx (s : State) (x : Reg) : exec (.ldMiVx x) s = .next (s.storeRegs x) := rfl

theorem exec_ldVxMi (s : State) (x : Reg) : exec (.ldVxMi x) s = .next (s.loadRegs x) := rfl

@[simp] theorem State.storeRegs_i (s : State) (x : Reg) : (s.storeRegs x).i = s.i := by
  obtain ⟨m, hm, -⟩ := s.storeRegs_eq x
  rw [hm, State.setMem_i]

@[simp] theorem State.loadRegs_i (s : State) (x : Reg) : (s.loadRegs x).i = s.i := by
  obtain ⟨w, hw⟩ := s.loadRegs_eq x
  rw [hw, State.setV_i]

/-- A read at the reduced address I + k (R176). -/
theorem State.memRead_effAddr_mod (s t : State) (k : Nat) :
    t.memRead ((s.i.toNat + k) % 4096) = t.memRead (s.effAddr k) :=
  t.memRead_mod _

/-- Settles O33: the read at I + k after the block store, its address reduced. -/
theorem ldMiStoresTheBlock : Obligations.LdMiStoresTheBlock := by
  refine fun s x => ⟨_, exec_ldMiVx s x, fun k hk => ?_, s.storeRegs_i x⟩
  rw [State.memRead_effAddr_mod, State.memRead_storeRegs_same s hk]

/-- Settles O34: the registers after the block load, up to x and above it. -/
theorem ldVxMiLoadsTheBlock : Obligations.LdVxMiLoadsTheBlock := by
  refine fun s x => ⟨_, exec_ldVxMi s x, fun k hk => ?_, fun k hk => ?_, s.loadRegs_i x⟩
  · rw [State.reg_loadRegs, if_pos hk, State.memRead_effAddr_mod]
  · rw [State.reg_loadRegs, if_neg (not_le.2 hk)]

/-- Settles O35: the load reads the bytes the store wrote, at the same addresses. -/
theorem storeThenLoadRestoresTheBlock : Obligations.StoreThenLoadRestoresTheBlock := by
  intro s t u x hstore hi hmem
  cases hstore
  refine ⟨_, exec_ldVxMi u x, fun k hk => ?_⟩
  have haddr : u.effAddr k.val = s.effAddr k.val := by rw [State.effAddr, State.effAddr, hi]
  rw [State.reg_loadRegs, if_pos hk, haddr, hmem, State.memRead_storeRegs_same s hk]

/-- Settles O36: the two addresses of the fetch are those of the two stored bytes, modulo 4096. -/
theorem storedBytesAreFetched : Obligations.StoredBytesAreFetched := by
  intro s t x j k hstore hjk hk a ha
  cases hstore
  have hj : j ≤ x := le_trans (Fin.le_def.2 (by omega)) hk
  have hhigh : (s.storeRegs x).memRead a.toNat = s.reg j := by
    rw [ha, State.memRead_effAddr_mod, State.memRead_storeRegs_same s hj]
  have hlow : (s.storeRegs x).memRead (a.toNat + 1) = s.reg k := by
    have haddr : (a.toNat + 1) % 4096 = (s.i.toNat + k.val) % 4096 := by omega
    rw [← State.memRead_mod, haddr, State.memRead_effAddr_mod, State.memRead_storeRegs_same s hk]
  exact congrArg₂ wordOfBytes hhigh hlow

theorem toNat_bcdHundreds (b : Byte) : (bcdHundreds b).toNat = b.toNat / 100 := by
  have := b.isLt
  rw [bcdHundreds, BitVec.toNat_ofNat]
  omega

theorem toNat_bcdTens (b : Byte) : (bcdTens b).toNat = b.toNat / 10 % 10 := by
  rw [bcdTens, BitVec.toNat_ofNat]
  omega

theorem toNat_bcdOnes (b : Byte) : (bcdOnes b).toNat = b.toNat % 10 := by
  rw [bcdOnes, BitVec.toNat_ofNat]
  omega

/-- The three digits in their three cells: a later write does not reach an earlier cell, wrap included. -/
theorem State.memRead_digits (s : State) (b₀ b₁ b₂ : Byte) :
    let t := ((s.memWrite (s.effAddr 0) b₀).memWrite (s.effAddr 1) b₁).memWrite (s.effAddr 2) b₂
    t.memRead (s.effAddr 0) = b₀ ∧ t.memRead (s.effAddr 1) = b₁ ∧ t.memRead (s.effAddr 2) = b₂ := by
  have hne : ∀ j k, j < k → k < 3 → s.effAddr j % 4096 ≠ s.effAddr k % 4096 := by
    intro j k hjk hk
    simp only [State.effAddr]
    omega
  refine ⟨?_, ?_, State.memRead_memWrite_same _ _ _⟩
  · rw [State.memRead_memWrite_other _ _ (hne 0 2 (by decide) (by decide)),
      State.memRead_memWrite_other _ _ (hne 0 1 (by decide) (by decide)), State.memRead_memWrite_same]
  · rw [State.memRead_memWrite_other _ _ (hne 1 2 (by decide) (by decide)), State.memRead_memWrite_same]

/-- Settles O32: the three cells are distinct, and each digit fits a byte. -/
theorem ldBStoresThreeDigits : Obligations.LdBStoresThreeDigits := by
  intro s x
  obtain ⟨hhundreds, htens, hones⟩ :=
    s.memRead_digits (bcdHundreds (s.reg x)) (bcdTens (s.reg x)) (bcdOnes (s.reg x))
  refine ⟨_, rfl, ?_, ?_, ?_, rfl⟩
  · exact (congrArg BitVec.toNat ((State.memRead_effAddr_mod s _ 0).trans hhundreds)).trans (toNat_bcdHundreds _)
  · exact (congrArg BitVec.toNat ((State.memRead_effAddr_mod s _ 1).trans htens)).trans (toNat_bcdTens _)
  · exact (congrArg BitVec.toNat ((State.memRead_effAddr_mod s _ 2).trans hones)).trans (toNat_bcdOnes _)

/-! ### Reset, load and placing a word (spec/10_state.md R38; spec/70_reset_and_hazards.md R262) -/

/-- A new machine lists no byte, so it reads its reset content everywhere (R261). -/
theorem memRead_powerOn (c : Config) {a : Nat} (h : a < 4096) : (State.powerOn c).memRead a = memReset c a := by
  rw [State.memRead, Nat.mod_eq_of_lt h]
  rfl

/-- Settles O49: memory lists nothing, so it reads its reset content; the other fields are written out. -/
theorem powerOnHoldsTheResetValues : Obligations.PowerOnHoldsTheResetValues := by
  refine fun c => ⟨fun a ha => ?_, fun a hle hlt => ?_, fun r => ?_, rfl, rfl, rfl, rfl, rfl, rfl, rfl, rfl,
    fun _ _ => rfl, fun k => ?_, rfl, rfl⟩
  · rw [memRead_powerOn c (by omega), memReset, dif_pos ha]
  · rw [memRead_powerOn c hlt, memReset, dif_neg (by omega)]
  · exact Vector.getElem_replicate r.isLt
  · exact Vector.getElem_replicate k.isLt

/-- Settles O50: an image that fits does not pass the end of memory. -/
theorem loadWritesTheImageOrRefuses : Obligations.LoadWritesTheImageOrRefuses := by
  refine fun s image => ⟨fun hfits => ⟨s.writeBytes 0x200 image, if_pos hfits, ?_, ?_⟩,
    fun hlong => if_neg (by omega)⟩
  · obtain ⟨m, hm, -⟩ := s.writeBytes_eq image 0x200
    rw [hm]
    exact s.keepsAllBut_setMem m
  · exact State.memRead_writeBytes image 0x200 s (by omega)

/-- The table's word decodes as the word it numbers. -/
theorem decodeWord_of_decodeTableWord {nbits w : Nat} {i : Instr} (h : decodeTableWord nbits w = some i) :
    decodeWord (tableWord nbits w) = .instr i := by
  have hbytes := decodeBytes_bytes (tableWord nbits w) []
  rw [List.append_nil] at hbytes
  rw [decodeTableWord, hbytes] at h
  split at h
  · next j _ heq =>
    cases h
    exact (Prod.mk.inj heq).1
  · cases h
  · cases h

/-- A placed word is what a fetch at PC reads: its two cells are distinct, wrap included. -/
theorem State.fetchWord_placeWord (s : State) (w : Word) : (s.placeWord w).fetchWord = w := by
  have hne : s.pc.toNat % 4096 ≠ (s.pc.toNat + 1) % 4096 := by omega
  have hhigh : (s.placeWord w).memRead s.pc.toNat = hiByte w := by
    rw [State.placeWord, State.memRead_memWrite_other _ _ hne, State.memRead_memWrite_same]
  have hlow : (s.placeWord w).memRead (s.pc.toNat + 1) = loByte w := State.memRead_memWrite_same _ _ _
  exact (congrArg₂ wordOfBytes hhigh hlow).trans (wordOfBytes_bytes w)

/-- What is left of the host's list after its leading key events does not begin with one. -/
theorem dropKeyEvents_ne (l : List HostAction) (k : Key) (rest : List HostAction) :
    dropKeyEvents l ≠ .keyDown k :: rest ∧ dropKeyEvents l ≠ .keyUp k :: rest := by
  induction l with
  | nil => exact ⟨nofun, nofun⟩
  | cons a l ih =>
    cases a with
    | tick => exact ⟨nofun, nofun⟩
    | keyDown j => exact ih
    | keyUp j => exact ih

/-- No key event is due while the host's list begins with none. -/
theorem State.noKeyDue_of_host {s : State}
    (h : ∀ k rest, s.host ≠ .keyDown k :: rest ∧ s.host ≠ .keyUp k :: rest) : s.NoKeyDue := by
  unfold State.NoKeyDue
  by_contra hdue
  obtain ⟨t, ht⟩ := Option.ne_none_iff_exists'.1 hdue
  obtain ⟨-, ⟨k, rest, hhost, -⟩ | ⟨k, rest, hhost, -⟩⟩ := State.keyEvent_cases ht
  · exact (h k rest).1 hhost
  · exact (h k rest).2 hhost

/-! What the state made ready holds (log entry 14): a tick has a slot, the position is one of its slots, and at
position 0 the host's list begins with no key event. -/

theorem State.readyForSlot_slot (s : State) :
    s.readyForSlot.slot = if s.slot < s.readyForSlot.cfg.ipt then s.slot else 0 := rfl

theorem State.readyForSlot_host (s : State) :
    s.readyForSlot.host = if s.readyForSlot.slot = 0 then dropKeyEvents s.host else s.host := rfl

theorem State.readyForSlot_ipt_pos (s : State) : 0 < s.readyForSlot.cfg.ipt := by
  have hcfg : s.readyForSlot.cfg = if s.cfg.ipt = 0 then { s.cfg with ipt := 1 } else s.cfg := rfl
  rw [hcfg]
  split
  · exact one_pos
  · next h => exact Nat.pos_of_ne_zero h

theorem State.readyForSlot_slot_lt (s : State) : s.readyForSlot.slot < s.readyForSlot.cfg.ipt := by
  rw [State.readyForSlot_slot]
  split
  · next h => exact h
  · exact s.readyForSlot_ipt_pos

theorem State.readyForSlot_noKeyDue (s : State) : s.readyForSlot.NoKeyDue := by
  rcases Nat.eq_zero_or_pos s.readyForSlot.slot with hzero | hpos
  · apply State.noKeyDue_of_host
    rw [State.readyForSlot_host, if_pos hzero]
    exact dropKeyEvents_ne s.host
  · exact State.noKeyDue_of_slot hpos

theorem State.readyForSlot_runsSlot (s : State) : s.readyForSlot.RunsSlot :=
  ⟨s.readyForSlot_noKeyDue, rfl, rfl, s.readyForSlot_slot_lt⟩

/-- Storing a word moves nothing that decides whether a slot runs. -/
theorem State.RunsSlot.placeWord {s : State} (h : s.RunsSlot) (w : Word) : (s.placeWord w).RunsSlot := by
  obtain ⟨hkey, hrun, hpaused, hslot⟩ := h
  exact ⟨State.noKeyDue_congr (s := s) rfl rfl hkey, hrun, hpaused, hslot⟩

/-- Settles O13: a state made ready runs a slot, and storing the word changes only what it fetches. -/
theorem placedWordIsRunNext : Obligations.PlacedWordIsRunNext := by
  intro s nbits w i h
  refine ⟨s.readyForSlot_runsSlot.placeWord _, rfl, ?_⟩
  rw [State.withFetchWord, State.fetchWord_placeWord, decodeWord_of_decodeTableWord h]

end Sys2Proof.Machine

namespace Sys2Proof.Machine

/-! ### Drawing (spec/45_devices.md R201; spec/60_exceptions.md R236) -/

theorem Display.isOn_iff {d : Display} {py px : Nat} : d.isOn py px = true ↔ (py, px) ∈ d := decide_eq_true_iff

/-- A pixel after one pixel was flipped. -/
theorem Display.isOn_flip (d : Display) (qy qx py px : Nat) : (Display.flip d (qy, qx)).isOn py px =
    if py = qy ∧ px = qx then !d.isOn py px else d.isOn py px := by
  rw [Bool.eq_iff_iff, Display.isOn_iff, Display.mem_flip]
  simp only [Prod.mk.injEq]
  split
  · next h => rw [Bool.not_eq_true', ← Bool.not_eq_true, Display.isOn_iff, h.1, h.2]
  · rw [Display.isOn_iff]

/-- Settles O39: a toggle is a flip of the wrapped pixel, and wrapping is periodic. -/
theorem toggleWrapsAndFlipsOnePixel : Obligations.ToggleWrapsAndFlipsOnePixel := by
  refine fun c d x y _ => ⟨rfl, Display.isOn_flip d _ _, ?_, ?_⟩
  · rw [Display.toggle, Nat.add_mod_right, Display.toggle]
  · rw [Display.toggle, Nat.add_mod_right, Display.toggle]

/-- The points that DRW toggles (R201). -/
def State.drwPoints (s : State) (x y : Reg) (n : Nat) : List (Nat × Nat) := s.spritePoints (s.reg x) (s.reg y) n

/-- The display that DRW leaves, and whether it erased a pixel (R201). -/
def State.drawn (s : State) (x y : Reg) (n : Nat) : Display × Bool :=
  Display.toggleAll s.cfg (s.drwPoints x y n) (s.display, false)

/-- DRW on a display with a pixel: the drawn display, then VF (R201). -/
theorem exec_drw_of_wf {s : State} (h : s.cfg.wf = true) (x y : Reg) (n : Nat) :
    exec (.drw x y n) s = .next ((s.setDisplay (s.drawn x y n).1).setReg vf (flagByte (s.drawn x y n).2)) := by
  obtain ⟨hw, hh⟩ := Config.wf_iff.1 h
  exact if_neg (by omega)

/-- DRW on a display without a pixel stops by name (log entry 26). -/
theorem exec_drw_of_not_wf {s : State} (h : s.cfg.wf = false) (x y : Reg) (n : Nat) :
    exec (.drw x y n) s = .fault .noDisplay := by
  have hnot : ¬ (0 < s.cfg.displayW ∧ 0 < s.cfg.displayH) := by rw [← Config.wf_iff, h]; exact nofun
  exact if_pos (by omega)

/-- A sprite of no rows toggles nothing. -/
theorem State.drawn_zero (s : State) (x y : Reg) : s.drawn x y 0 = (s.display, false) := rfl

theorem flagByte_cases (b : Bool) : flagByte b = 0 ∨ flagByte b = 1 := by
  cases b
  · exact .inl rfl
  · exact .inr rfl

/-- Settles O41: by whether the configuration has a pixel. -/
theorem drwCompletesOnEveryDisplay : Obligations.DrwCompletesOnEveryDisplay := by
  refine fun s x y n => ⟨fun hwf => ⟨_, exec_drw_of_wf hwf x y n, ?_, ?_⟩, fun hwf => exec_drw_of_not_wf hwf x y n⟩
  · rw [State.reg_setReg_same]
    exact flagByte_cases _
  · rintro rfl
    rw [State.drawn_zero]
    exact ⟨State.reg_setReg_same _ _ _, rfl⟩

/-- A sprite covers the pixels its points fall on. -/
theorem spriteCovers_iff {s : State} {x y : Reg} {n py px : Nat} :
    SpriteCovers s x y n py px ↔ (py, px) ∈ (s.drwPoints x y n).map (wrapPoint s.cfg) := by
  simp only [SpriteCovers, State.memRead_effAddr_mod, State.drwPoints, List.mem_map, State.mem_spritePoints]
  constructor
  · rintro ⟨row, hrow, col, hcol, hbit, rfl, rfl⟩
    exact ⟨_, ⟨row, hrow, col, hcol, hbit, rfl⟩, rfl⟩
  · rintro ⟨_, ⟨row, hrow, col, hcol, hbit, rfl⟩, hpixel⟩
    obtain ⟨rfl, rfl⟩ := Prod.mk.inj hpixel
    exact ⟨row, hrow, col, hcol, hbit, rfl, rfl⟩

theorem nodup_rowPoints (b : Byte) (x y : Nat) : (rowPoints b x y).Nodup :=
  (List.nodup_range.filter _).map fun _ _ h => Nat.add_left_cancel (Prod.mk.inj h).1

/-- Points of distinct rows, or of distinct columns of one row, are distinct. -/
theorem State.nodup_spritePoints (s : State) (vx vy : Byte) (n : Nat) : (s.spritePoints vx vy n).Nodup := by
  refine List.nodup_flatMap.2 ⟨fun row _ => nodup_rowPoints _ _ _, List.nodup_range.imp ?_⟩
  intro row row' hne p hp hp'
  obtain ⟨col, -, -, rfl⟩ := mem_rowPoints.1 hp
  obtain ⟨col', -, -, heq⟩ := mem_rowPoints.1 hp'
  exact hne (Nat.add_left_cancel (Prod.mk.inj heq).2)

/-- Offsets smaller than the modulus stay distinct when they are wrapped. -/
theorem eq_of_add_mod_eq {a b b' m : Nat} (hb : b < m) (hb' : b' < m) (h : (a + b) % m = (a + b') % m) : b = b' :=
  (Nat.ModEq.add_left_cancel' a h).eq_of_lt_of_lt hb hb'

/-- On a display of at least 8 columns and n rows no two points of a sprite fall on one pixel (R8). -/
theorem State.nodup_wrapped_drwPoints (s : State) (x y : Reg) {n : Nat} (hw : 8 ≤ s.cfg.displayW)
    (hh : n ≤ s.cfg.displayH) : ((s.drwPoints x y n).map (wrapPoint s.cfg)).Nodup := by
  refine (s.nodup_spritePoints _ _ n).map_on fun p hp q hq heq => ?_
  obtain ⟨row, hrow, col, hcol, -, rfl⟩ := State.mem_spritePoints.1 hp
  obtain ⟨row', hrow', col', hcol', -, rfl⟩ := State.mem_spritePoints.1 hq
  obtain ⟨hy, hx⟩ := Prod.mk.inj heq
  rw [eq_of_add_mod_eq (by omega) (by omega) hy, eq_of_add_mod_eq (by omega) (by omega) hx]

/-- When no two points fall on one pixel, a draw flips exactly the pixels they fall on. -/
theorem Display.mem_toggleAll_of_nodup {c : Config} {pts : List (Nat × Nat)} (h : (pts.map (wrapPoint c)).Nodup)
    (d : Display) (e : Bool) (q : Nat × Nat) :
    q ∈ (Display.toggleAll c pts (d, e)).1 ↔ (q ∈ d ↔ q ∉ pts.map (wrapPoint c)) := by
  have hcount : pts.countP (fun p => wrapPoint c p = q) = (pts.map (wrapPoint c)).count q := by
    rw [List.count, List.countP_map]
    exact List.countP_congr fun p _ => by simp
  rw [Display.mem_toggleAll, hcount]
  by_cases hq : q ∈ pts.map (wrapPoint c)
  · rw [List.count_eq_one_of_mem h hq]; simp [hq]
  · rw [List.count_eq_zero_of_not_mem hq]; simp [hq]

/-- Settles O40: no two points share a pixel, so each covered pixel is flipped once, and the flag asks of the
display before the draw. -/
theorem drwXorsTheSpriteAndReportsCollision : Obligations.DrwXorsTheSpriteAndReportsCollision := by
  intro s x y n hw hh hpos
  have hnodup := s.nodup_wrapped_drwPoints x y hw hh
  have hpixel : ∀ py px, (s.drawn x y n).1.isOn py px = true ↔ (s.display.isOn py px = true ↔
      ¬ SpriteCovers s x y n py px) := fun py px => by
    rw [spriteCovers_iff, Display.isOn_iff, Display.isOn_iff]
    exact Display.mem_toggleAll_of_nodup hnodup _ _ _
  have hflag : (s.drawn x y n).2 = true ↔ ∃ py px, SpriteCovers s x y n py px ∧ s.display.isOn py px = true := by
    rw [State.drawn, Display.erased_toggleAll _ _ _ _ hnodup, Bool.false_or, decide_eq_true_iff]
    simp only [spriteCovers_iff, Display.isOn_iff, List.mem_map]
    exact ⟨fun ⟨p, hp, hon⟩ => ⟨_, _, ⟨p, hp, rfl⟩, hon⟩, fun ⟨_, _, ⟨p, hp, heq⟩, hon⟩ => ⟨p, hp, heq ▸ hon⟩⟩
  refine ⟨_, exec_drw_of_wf (Config.wf_iff.2 ⟨by omega, hpos⟩) x y n, fun py px => ⟨fun hcov => ?_, fun hcov => ?_⟩,
    fun hhit => ?_, fun hmiss => ?_⟩
  · rw [State.setReg_display, State.setDisplay_display, Bool.eq_iff_iff, hpixel]
    simp [hcov]
  · rw [State.setReg_display, State.setDisplay_display, Bool.eq_iff_iff, hpixel]
    simp [hcov]
  · rw [State.reg_setReg_same, hflag.2 hhit]
    rfl
  · rw [State.reg_setReg_same, eq_false_of_ne_true fun h => hmiss (hflag.1 h)]
    rfl

/-- Toggling the same points twice restores a canonical display: each pixel is flipped an even number of times. -/
theorem Display.toggleAll_twice {c : Config} (hc : c.wf = true) {d : Display} (hd : Display.wf c d = true)
    (pts : List (Nat × Nat)) (e e' : Bool) :
    (Display.toggleAll c pts ((Display.toggleAll c pts (d, e)).1, e')).1 = d := by
  have honce := Display.wf_toggleAll hc pts (d, e) hd
  refine Display.ext (Display.wf_toggleAll hc pts (_, e') honce) hd fun q => ?_
  rw [Display.mem_toggleAll, Display.mem_toggleAll]
  tauto

/-- All that DRW can do where it answers a state: the display has a pixel and has been drawn on. -/
theorem exec_drw_inv {s t : State} {x y : Reg} {n : Nat} (h : exec (.drw x y n) s = .next t) :
    s.cfg.wf = true ∧ t = (s.setDisplay (s.drawn x y n).1).setReg vf (flagByte (s.drawn x y n).2) := by
  cases hwf : s.cfg.wf with
  | false => cases (exec_drw_of_not_wf hwf x y n).symm.trans h
  | true => exact ⟨rfl, (Host.Outcome.next.inj ((exec_drw_of_wf hwf x y n).symm.trans h)).symm⟩

/-- Settles O42: the second draw has the same points, since it reads neither the display nor VF. -/
theorem drawingTwiceRestoresTheDisplay : Obligations.DrawingTwiceRestoresTheDisplay := by
  intro s t u x y n hx hy hd hfirst hsecond
  obtain ⟨hwf, rfl⟩ := exec_drw_inv hfirst
  obtain ⟨-, rfl⟩ := exec_drw_inv hsecond
  have hpoints : ((s.setDisplay (s.drawn x y n).1).setReg vf (flagByte (s.drawn x y n).2)).drwPoints x y n =
      s.drwPoints x y n := by
    rw [State.drwPoints, State.reg_setReg_other _ _ hx, State.reg_setReg_other _ _ hy]
    rfl
  rw [State.setReg_display, State.setDisplay_display, State.drawn, hpoints]
  exact Display.toggleAll_twice hwf hd _ _ _

end Sys2Proof.Machine

namespace Sys2Proof.Machine

/-! ### No instruction reads the tone or ST (spec/10_state.md R29, R36; spec/44_timers.md R193) -/

/-- Another tone and another ST. -/
def State.setSound (s : State) (b : Bool) (v : Byte) : State := (s.setTone b).setSt v

section
variable (s : State) (b : Bool) (v : Byte)

theorem State.setTone_eq_setSound : s.setTone b = s.setSound b s.st := rfl

theorem State.setSt_eq_setSound : s.setSt v = s.setSound s.tone v := rfl

theorem State.skipIf_setSound (c : Bool) : (s.setSound b v).skipIf c = (s.skipIf c).setSound b v := by
  cases c <;> rfl

/-- A block store reads registers and I, and writes memory. -/
theorem State.storeRegs_setSound (x : Reg) : (s.setSound b v).storeRegs x = (s.storeRegs x).setSound b v :=
  List.foldl_hom (fun t => State.setSound t b v) fun _ _ => rfl

/-- A block load reads memory and I, and writes registers. -/
theorem State.loadRegs_setSound (x : Reg) : (s.setSound b v).loadRegs x = (s.loadRegs x).setSound b v :=
  List.foldl_hom (fun t => State.setSound t b v) fun _ _ => rfl

/-- Every instruction but Fx18 answers the same whatever the tone and ST, and leaves them be. -/
theorem exec_setSound {i : Instr} (hi : ∀ x, i ≠ .ldStVx x) :
    exec i (s.setSound b v) = mapNext (fun t => t.setSound b v) (exec i s) := by
  cases i with
  | ldStVx x => exact absurd rfl (hi x)
  | ret =>
    cases hstack : s.stack with
    | nil => rw [exec_ret_of_nil hstack, exec_ret_of_nil (s := s.setSound b v) hstack]; rfl
    | cons a rest => rw [exec_ret_of_cons hstack, exec_ret_of_cons (s := s.setSound b v) hstack]; rfl
  | call nnn =>
    cases hfull : s.stackFull with
    | true => rw [exec_call_of_full nnn hfull, exec_call_of_full (s := s.setSound b v) nnn hfull]; rfl
    | false => rw [exec_call_of_not_full nnn hfull, exec_call_of_not_full (s := s.setSound b v) nnn hfull]; rfl
  | drw x y n =>
    cases hwf : s.cfg.wf with
    | true => rw [exec_drw_of_wf hwf, exec_drw_of_wf (s := s.setSound b v) hwf]; rfl
    | false => rw [exec_drw_of_not_wf hwf, exec_drw_of_not_wf (s := s.setSound b v) hwf]; rfl
  | seImm _ _ | sneImm _ _ | seReg _ _ | sneReg _ _ | skp _ | sknp _ =>
    exact congrArg Host.Outcome.next (s.skipIf_setSound b v _)
  | ldMiVx x => exact congrArg Host.Outcome.next (s.storeRegs_setSound b v x)
  | ldVxMi x => exact congrArg Host.Outcome.next (s.loadRegs_setSound b v x)
  | _ => rfl

end

theorem mapNext_congr {f g : State → State} {r : Result} (h : ∀ t, r = .next t → f t = g t) :
    mapNext f r = mapNext g r := by
  cases r with
  | next t => exact congrArg Host.Outcome.next (h t rfl)
  | fault _ => rfl
  | refused _ => rfl

/-- An instruction other than Fx18 keeps ST. -/
theorem st_of_exec {i : Instr} {s t : State} (hi : ∀ x, i ≠ .ldStVx x) (h : exec i s = .next t) : t.st = s.st :=
  (exec_keeps h).st.resolve_right fun ⟨x, hx, _⟩ => hi x hx

/-- Settles O58: with both set at once the one that is not asked about keeps its value. -/
theorem noInstructionReadsToneOrST : Obligations.NoInstructionReadsToneOrST := by
  refine fun i s b v => ⟨?_, fun hi => ?_, ?_⟩
  · by_cases hi : ∃ x, i = .ldStVx x
    · obtain ⟨x, rfl⟩ := hi
      rfl
    · rw [not_exists] at hi
      rw [State.setTone_eq_setSound, exec_setSound s b s.st hi]
      exact mapNext_congr fun t ht => by rw [State.setTone_eq_setSound, st_of_exec hi ht]
  · rw [State.setSt_eq_setSound, exec_setSound s s.tone v hi]
    exact mapNext_congr fun t ht => by rw [State.setSt_eq_setSound, (exec_keeps ht).tone]
  · rintro x rfl
    rfl

end Sys2Proof.Machine
